-- ==== Sys2Proof/Word.lean ====
section
/-! DEFINITION. The Word (R7, R20: an unsigned 16-bit integer, bit 0 least significant) and the byte of the engine's two
byte boundaries (R42). -/

namespace Sys2Proof

/-- The engine's native unit: an unsigned 16-bit integer (R7, R20). -/
abbrev Word := BitVec 16

/-- One byte of an input or output stream, a program image or a snapshot (R42, R151, R153). -/
abbrev Byte := BitVec 8

end Sys2Proof
end

