-- ==== Sys2Proof/Machine/Flags.lean ====
section
/-! DEFINITION. The engine has no flags (R28): a comparison writes the Word 0 or 1 to a register (eq, gt), and jt and jf
test a whole Word. These are the computations that stand where flags would. -/

namespace Sys2Proof.Machine

/-- A truth value as a Word: "boolean-as-0/1" (R121, R122). -/
def boolWord (p : Bool) : Word := if p then 1 else 0

/-- The test of jt and jf: any nonzero Word is true, all 16 bits counted (R103, R104). -/
def wordTrue (w : Word) : Bool := decide (w ≠ 0)

/-- The relation of `eq`: equality of the full Words (R122). -/
def wordEq (u v : Word) : Bool := decide (u = v)

/-- The relation of `gt`: strictly greater, unsigned, first source against second (R123). -/
def wordGt (u v : Word) : Bool := decide (v.toNat < u.toNat)

end Sys2Proof.Machine
end

