-- ==== Sys2Proof/Config.lean ====
section
/-! DEFINITION. What is fixed for the machine: the sizes of R5, the three switches of R6 at the spec's defaults, and the
two free values the spec leaves open. -/

namespace Sys2Proof

/-- `MEM_WORDS` (R5): the number of memory cells; the addresses are 0 to 32767 (R40). -/
def Config.memWords : Nat := 32768

/-- `MODULUS` (R5): results of add, mult and mod are stored modulo this. -/
def Config.modulus : Nat := 32768

/-- `MASK15` (R5): the mask `not` applies. -/
def Config.mask15 : Word := 0x7FFF

/-- `LIT_MAX` (R5): the largest literal operand. -/
def Config.litMax : Nat := 32767

/-- `REG_BASE` (R5): the operand Word that denotes register 0. -/
def Config.regBase : Nat := 32768

/-- `REG_TOP` (R5): the operand Word that denotes register 7. -/
def Config.regTop : Nat := 32775

/-- `OUT_MAX` (R5): the largest value `out` accepts. -/
def Config.outMax : Nat := 255

/-- `RESET_PC` (R5). -/
def Config.resetPc : Word := 0

/-- `SNAP_FIXED_BYTES` (R5): the length of the fixed part of a snapshot. -/
def Config.snapFixedBytes : Nat := 65554

/-- `ANDOR_MASK15` (R6): whether and/or results are masked to 15 bits. The spec's default (D11, U7; log entry 5). -/
def Config.andOrMask15 : Bool := false

/-- `MOD_MASK15` (R6): whether the result of mod is reduced modulo 32768. The spec's default (D12, U6; log entry 5). -/
def Config.modMask15 : Bool := true

/-- `STRICT_LOOKAHEAD` (R6): whether a fetch always needs four in-range Words. The spec's default (D3, U8; log entry 5). -/
def Config.strictLookahead : Bool := true

/-- FREE VALUE (U2, log entry 3): what pc holds after an `InvalidOpcode` fault, by the count of free values drawn. -/
opaque Config.freePc : Nat → Word

/-- FREE VALUE (91_not_in_source.md N7, log entry 15): how far a debug listing moves past an Invalid Word, by its address
and the Word. -/
opaque Config.freeInvalidLength : Nat → Word → Nat

end Sys2Proof
end

