-- ==== Sys2Proof/Syntax.lean ====
section
/-! DEFINITION. The instructions: one constructor for each of the 22 rows of spec/opcode_table.json (R65), carrying its
raw operand Words a, b, c (R9, R82: "raw operand Words (unresolved)"). -/

namespace Sys2Proof

/-- A decoded Operation (R10, R65). The operands are raw Words: their class is examined by the effect, not here (R61). -/
inductive Instr where
  | halt                  -- 0
  | set (a b : Word)      -- 1
  | push (a : Word)       -- 2
  | pop (a : Word)        -- 3
  | eq (a b c : Word)     -- 4
  | gt (a b c : Word)     -- 5
  | jmp (a : Word)        -- 6
  | jt (a b : Word)       -- 7
  | jf (a b : Word)       -- 8
  | add (a b c : Word)    -- 9
  | mult (a b c : Word)   -- 10
  | mod (a b c : Word)    -- 11
  | and (a b c : Word)    -- 12
  | or (a b c : Word)     -- 13
  | not (a b : Word)      -- 14
  | rmem (a b : Word)     -- 15
  | wmem (a b : Word)     -- 16
  | call (a : Word)       -- 17
  | ret                   -- 18
  | out (a : Word)        -- 19
  | inp (a : Word)        -- 20, the table's `in` (a reserved word of Lean)
  | noop                  -- 21
  deriving DecidableEq, Repr

/-- The role of an operand position (R64). -/
inductive Role where
  | destination   -- must be a register reference; decoded by `dst` (R84)
  | source        -- a literal or a register reference; read by `val` (R83)
  deriving DecidableEq, Repr

end Sys2Proof
end

