-- ==== Sys2Proof/WellFormed.lean ====
section
/-! DEFINITION. Well-formed instructions: every carried operand has a class its role accepts (R61, R64, R67). An ill-formed
instruction still decodes and still runs: it raises `InvalidRegister` (R67, R83, R84). -/

namespace Sys2Proof

/-- The operands an instruction carries, in the order a, b, c, each with its role (the table of R64). Roles other than
those of add and in come from general knowledge (G2, D7; log entry 9, PRESUMED). -/
def Instr.operandRoles : Instr → List (Role × Word)
  | .halt => []
  | .set a b => [(.destination, a), (.source, b)]
  | .push a => [(.source, a)]
  | .pop a => [(.destination, a)]
  | .eq a b c => [(.destination, a), (.source, b), (.source, c)]
  | .gt a b c => [(.destination, a), (.source, b), (.source, c)]
  | .jmp a => [(.source, a)]
  | .jt a b => [(.source, a), (.source, b)]
  | .jf a b => [(.source, a), (.source, b)]
  | .add a b c => [(.destination, a), (.source, b), (.source, c)]
  | .mult a b c => [(.destination, a), (.source, b), (.source, c)]
  | .mod a b c => [(.destination, a), (.source, b), (.source, c)]
  | .and a b c => [(.destination, a), (.source, b), (.source, c)]
  | .or a b c => [(.destination, a), (.source, b), (.source, c)]
  | .not a b => [(.destination, a), (.source, b)]
  | .rmem a b => [(.destination, a), (.source, b)]
  | .wmem a b => [(.source, a), (.source, b)]
  | .call a => [(.source, a)]
  | .ret => []
  | .out a => [(.source, a)]
  | .inp a => [(.destination, a)]
  | .noop => []

/-- Whether a role accepts an operand Word: a destination must be a register reference, a source must not be an Invalid
Word (R61, R67). -/
def Role.accepts : Role → Word → Bool
  | .destination, w => decide (Config.regBase ≤ w.toNat) && decide (w.toNat ≤ Config.regTop)
  | .source, w => decide (w.toNat ≤ Config.regTop)

/-- Every carried operand is accepted by its role. -/
def Instr.wellFormed (i : Instr) : Bool :=
  i.operandRoles.all fun p => p.1.accepts p.2

end Sys2Proof
end

