-- ==== Sys2Proof/Decode.lean ====
section
/-! DEFINITION. Decoding Words into an instruction (R60 to R66, R82), the encoder after it, and the little-endian packing
of Words at the byte boundaries (R42). -/

namespace Sys2Proof

/-- Why Words are not an instruction. -/
inductive DecodeError where
  /-- There is no opcode Word. A fetch of four Words never meets it. -/
  | noOpcodeWord
  /-- The opcode Word is 22 to 65535 (R66). -/
  | invalidOpcode (w : Word)
  /-- Fewer Words follow than the opcode's arity. A fetch of four Words never meets it. -/
  | missingOperand (w : Word)
  deriving DecidableEq, Repr

/-- An opcode of format OP1 (R62) takes one operand Word. -/
def decodeOp1 (op : Word) (mk : Word → Instr) : List Word → Except DecodeError (Instr × List Word)
  | a :: rest => .ok (mk a, rest)
  | [] => .error (.missingOperand op)

/-- An opcode of format OP2 (R62) takes two operand Words. -/
def decodeOp2 (op : Word) (mk : Word → Word → Instr) : List Word → Except DecodeError (Instr × List Word)
  | a :: b :: rest => .ok (mk a b, rest)
  | _ => .error (.missingOperand op)

/-- An opcode of format OP3 (R62) takes three operand Words. -/
def decodeOp3 (op : Word) (mk : Word → Word → Word → Instr) : List Word → Except DecodeError (Instr × List Word)
  | a :: b :: c :: rest => .ok (mk a b c, rest)
  | _ => .error (.missingOperand op)

/-- The opcode Word is compared whole against 0 to 21 (R63, R65); the operands are taken raw (R82). Answers the
instruction and the Words after it. -/
def decodeFrom (w : Word) (ws : List Word) : Except DecodeError (Instr × List Word) :=
  match w.toNat with
  | 0 => .ok (.halt, ws)
  | 1 => decodeOp2 w .set ws
  | 2 => decodeOp1 w .push ws
  | 3 => decodeOp1 w .pop ws
  | 4 => decodeOp3 w .eq ws
  | 5 => decodeOp3 w .gt ws
  | 6 => decodeOp1 w .jmp ws
  | 7 => decodeOp2 w .jt ws
  | 8 => decodeOp2 w .jf ws
  | 9 => decodeOp3 w .add ws
  | 10 => decodeOp3 w .mult ws
  | 11 => decodeOp3 w .mod ws
  | 12 => decodeOp3 w .and ws
  | 13 => decodeOp3 w .or ws
  | 14 => decodeOp2 w .not ws
  | 15 => decodeOp2 w .rmem ws
  | 16 => decodeOp2 w .wmem ws
  | 17 => decodeOp1 w .call ws
  | 18 => .ok (.ret, ws)
  | 19 => decodeOp1 w .out ws
  | 20 => decodeOp1 w .inp ws
  | 21 => .ok (.noop, ws)
  | _ => .error (.invalidOpcode w)

/-- Decoding Words: the first is the opcode Word (R60). -/
def decode : List Word → Except DecodeError (Instr × List Word)
  | [] => .error .noOpcodeWord
  | w :: ws => decodeFrom w ws

/-- The opcode number of an instruction (R65). -/
def Instr.opcode : Instr → Word
  | .halt => 0
  | .set _ _ => 1
  | .push _ => 2
  | .pop _ => 3
  | .eq _ _ _ => 4
  | .gt _ _ _ => 5
  | .jmp _ => 6
  | .jt _ _ => 7
  | .jf _ _ => 8
  | .add _ _ _ => 9
  | .mult _ _ _ => 10
  | .mod _ _ _ => 11
  | .and _ _ _ => 12
  | .or _ _ _ => 13
  | .not _ _ => 14
  | .rmem _ _ => 15
  | .wmem _ _ => 16
  | .call _ => 17
  | .ret => 18
  | .out _ => 19
  | .inp _ => 20
  | .noop => 21

/-- The mnemonic of an instruction (R65); a disassembly shows it (R72). -/
def Instr.mnemonic : Instr → String
  | .halt => "halt"
  | .set _ _ => "set"
  | .push _ => "push"
  | .pop _ => "pop"
  | .eq _ _ _ => "eq"
  | .gt _ _ _ => "gt"
  | .jmp _ => "jmp"
  | .jt _ _ => "jt"
  | .jf _ _ => "jf"
  | .add _ _ _ => "add"
  | .mult _ _ _ => "mult"
  | .mod _ _ _ => "mod"
  | .and _ _ _ => "and"
  | .or _ _ _ => "or"
  | .not _ _ => "not"
  | .rmem _ _ => "rmem"
  | .wmem _ _ => "wmem"
  | .call _ => "call"
  | .ret => "ret"
  | .out _ => "out"
  | .inp _ => "in"
  | .noop => "noop"

/-- The raw operand Words an instruction carries, in the order a, b, c (R62). -/
def Instr.operands (i : Instr) : List Word :=
  i.operandRoles.map Prod.snd

/-- The number of operand Words (R10, R65). -/
def Instr.arity (i : Instr) : Nat :=
  i.operands.length

/-- The word-length of an instruction: arity plus one (R60, R65). -/
def Instr.length (i : Instr) : Nat :=
  i.arity + 1

/-- The Words of an instruction: its opcode Word, then its operands (R60, R62). -/
def encode (i : Instr) : List Word :=
  i.opcode :: i.operands

/-- The two bytes of a Word at a byte boundary, low byte first (R42). -/
def wordBytes (w : Word) : List Byte :=
  [w.extractLsb' 0 8, w.extractLsb' 8 8]

/-- The Word of two bytes at a byte boundary: `low + 256 * high` (R42). -/
def wordOfBytes (low high : Byte) : Word :=
  high ++ low

/-- Words as bytes, little-endian (R42). -/
def bytesOfWords (ws : List Word) : List Byte :=
  ws.flatMap wordBytes

/-- Bytes as Words, little-endian pairs; an odd number of bytes is malformed (R203, R184). -/
def wordsOfBytes : List Byte → Option (List Word)
  | [] => some []
  | [_] => none
  | low :: high :: rest => (wordsOfBytes rest).map (wordOfBytes low high :: ·)

/-- The four Words of an instruction numbered as spec/opcode_table.json numbers its bits: bit 0 is the least significant
bit of the first Word, and bit 16 * k the least significant bit of Word k; every bit from `nbits` on is 0. -/
def tableWords (nbits w : Nat) : List Word :=
  let v := w % 2 ^ nbits
  [BitVec.ofNat 16 v, BitVec.ofNat 16 (v >>> 16), BitVec.ofNat 16 (v >>> 32), BitVec.ofNat 16 (v >>> 48)]

/-- The instruction the decoder reads from an instruction whose bits are `w`, numbered as `tableWords` says. -/
def decodeTableWord (nbits w : Nat) : Option Instr :=
  match decode (tableWords nbits w) with
  | .ok (i, _) => some i
  | .error _ => none

end Sys2Proof
end

