-- ==== Sys2Proof/Machine/State.lean ====
section
/-! DEFINITION. The state of the engine as plain data (10_state.md), the reasons a step could stop outside it, and the
state after reset (R33). -/

namespace Sys2Proof.Machine

/-- Memory: the cells that do not hold 0, by address, addresses strictly rising (log entry 1). An unlisted address below
32768 reads as 0 (R33, R47). A cell is a whole Word because nothing smaller is addressable (R40, R42). -/
abbrev Memory := List (Nat × Word)

/-- The canonical form from address `lo` on: addresses rise strictly, lie in 0 to 32767, and no listed cell holds 0. -/
def Memory.wfFrom : Nat → Memory → Bool
  | _, [] => true
  | lo, (a, v) :: rest =>
    decide (lo ≤ a) && decide (a < Config.memWords) && decide (v ≠ 0) && Memory.wfFrom (a + 1) rest

/-- The canonical form of a memory. -/
def Memory.wf (m : Memory) : Bool :=
  Memory.wfFrom 0 m

/-- The three phases in which an address can be out of range (R160). -/
inductive AccessPhase where
  | fetch
  | read
  | write
  deriving DecidableEq, Repr

/-- The fatal conditions with the information each records: the closed enumeration of R160. -/
inductive FatalCause where
  /-- The Word at pc is above 21 (R66, R82). -/
  | invalidOpcode (w : Word)
  /-- A source operand Word is above 32775, or a destination operand Word is no register reference (R83, R84). -/
  | invalidRegister (w : Word)
  /-- A fetch from above 32764 (the pc), or a data address above 32767 (R45, R81, R140, R141). -/
  | memoryOutOfRange (phase : AccessPhase) (address : Word)
  /-- `pop` with an empty stack (R112). -/
  | stackUnderflow
  /-- `mod` with divisor 0 (R126). -/
  | divideByZero
  /-- `out` of a value above 255 (R150). -/
  | cannotPrint (v : Word)
  /-- `restore` of a buffer that is too short or of odd length (R184); no instruction raises it. -/
  | malformedSnapshot
  deriving DecidableEq, Repr

/-- The state of the engine: all that 10_state.md gives it (R20 to R35), and one counter of the model's own. -/
structure State where
  /-- The eight general registers (R21). -/
  x : Vector Word 8
  /-- The program counter (R23). -/
  pc : Word
  /-- The halted flag (R24). -/
  halted : Bool
  /-- The fault latch (R25). -/
  fault : Option FatalCause
  /-- The stack, bottom first (R26). -/
  stack : List Word
  /-- The memory (R27). -/
  mem : Memory
  /-- `OUT_STREAM`: the bytes emitted so far (R31, R151). -/
  outStream : List Byte
  /-- `IN_STREAM`: the bytes available and not yet consumed (R31, R153). -/
  inStream : List Byte
  /-- The MODEL's own field: how many free values have been drawn (log entry 4). -/
  draws : Nat
  deriving DecidableEq, Repr

/-- Stops outside the state: NONE. Every fatal condition the spec names is a NEXT state with the fault latch set (R161,
log entry 2), so this type has no constructor. Safe: nothing is proved by a stop that cannot happen. -/
inductive Fault where
  deriving DecidableEq, Repr

/-- Refusals. -/
inductive Refusal where
  /-- Raised by an arm of `exec` whose instruction has no meaning in the model yet; no arm raises it. Safe: the model
  would stop where the hardware goes on. -/
  | notModelled (mnemonic : String)
  deriving DecidableEq, Repr

/-- The outcome of a meaning. -/
abbrev Result := Host.Outcome State Fault Refusal

/-- The engine right after reset (R33, R200) with the empty image (R202, log entry 7) and no input byte yet (log entry 6). -/
def State.reset : State where
  x := Vector.replicate 8 0
  pc := Config.resetPc
  halted := false
  fault := none
  stack := []
  mem := []
  outStream := []
  inStream := []
  draws := 0

end Sys2Proof.Machine
end

