-- ==== Sys2Proof/Machine/Ops.lean ====
section
/-! DEFINITION. The named operations over registers, memory, stack and streams (the primitives of R8), raising a fatal
condition (R161), and the fetch and decode at the head of a step (R80 to R82). -/

namespace Sys2Proof.Machine

/-! ## Memory (R40 to R47) -/

/-- The Word in a cell: the one last written, or 0 (R46, R47). -/
def Memory.read : Memory → Nat → Word
  | [], _ => 0
  | (b, w) :: rest, a => if a = b then w else Memory.read rest a

/-- Replaces one cell (R43), keeping the canonical form. -/
def Memory.write : Memory → Nat → Word → Memory
  | [], a, v => if v = 0 then [] else [(a, v)]
  | (b, w) :: rest, a, v =>
    if a < b then (if v = 0 then (b, w) :: rest else (a, v) :: (b, w) :: rest)
    else if a = b then (if v = 0 then rest else (a, v) :: rest)
    else (b, w) :: Memory.write rest a v

/-- The memory whose cells from address `base` on hold the given Words, every other cell 0. -/
def Memory.ofWords : Nat → List Word → Memory
  | _, [] => []
  | base, w :: ws => if w = 0 then Memory.ofWords (base + 1) ws else (base, w) :: Memory.ofWords (base + 1) ws

/-- The Words of `n` cells from address `base` on. -/
def Memory.words (m : Memory) : Nat → Nat → List Word
  | _, 0 => []
  | base, n + 1 => Memory.read m base :: Memory.words m (base + 1) n

/-- Writes Words to consecutive cells from address `base` on. -/
def Memory.writeWords : Memory → Nat → List Word → Memory
  | m, _, [] => m
  | m, base, w :: ws => Memory.writeWords (Memory.write m base w) (base + 1) ws

/-! ## Registers and the other fields -/

/-- `x[i]` (R8). No register is hard-wired (R21). -/
def State.readReg (s : State) (i : Fin 8) : Word := s.x[i]

/-- `x[i] <- v` (R8): all 16 bits, unmasked (R20). -/
def State.writeReg (s : State) (i : Fin 8) (v : Word) : State := { s with x := s.x.set i v }

/-- `pc <- t` (R8): any Word, unchecked (R23, R107). -/
def State.setPc (s : State) (t : Word) : State := { s with pc := t }

/-- `halted <- 1` (R8). -/
def State.setHalted (s : State) : State := { s with halted := true }

/-- The fault latch takes a cause (R25). -/
def State.setFault (s : State) (c : FatalCause) : State := { s with fault := some c }

/-- The stack becomes the given sequence, bottom first. -/
def State.setStack (s : State) (st : List Word) : State := { s with stack := st }

/-- The memory becomes the given one. -/
def State.setMem (s : State) (m : Memory) : State := { s with mem := m }

/-- The bytes emitted become the given ones. -/
def State.setOut (s : State) (bs : List Byte) : State := { s with outStream := bs }

/-- The bytes available become the given ones. -/
def State.setIn (s : State) (bs : List Byte) : State := { s with inStream := bs }

/-- One free value has been drawn. -/
def State.countDraw (s : State) : State := { s with draws := s.draws + 1 }

/-- The pc advance past an instruction of `n` Words, before its effect (R86). -/
def State.advance (s : State) (n : Nat) : State := s.setPc (s.pc + BitVec.ofNat 16 n)

/-- `push(v)` (R8, R26): the new top is the last element. -/
def State.pushWord (s : State) (v : Word) : State := s.setStack (s.stack ++ [v])

/-- `pop()` (R8, R26): the top and the rest; none when the stack is empty. -/
def State.popWord (s : State) : Option (Word × State) :=
  match s.stack.getLast? with
  | none => none
  | some v => some (v, s.setStack s.stack.dropLast)

/-- `MemWrite(addr, 1, v)` (R8); the caller has checked the range. -/
def State.storeWord (s : State) (a : Word) (v : Word) : State := s.setMem (Memory.write s.mem a.toNat v)

/-- `MemRead(addr, 1)` (R8); the caller has checked the range. -/
def State.loadWord (s : State) (a : Word) : Word := Memory.read s.mem a.toNat

/-- `emit(b)` (R8, R151). -/
def State.emit (s : State) (b : Byte) : State := s.setOut (s.outStream ++ [b])

/-! ## Fatal conditions -/

/-- TAKING A FATAL CONDITION, the engine's one exception (R161): the latch records the cause; control goes nowhere,
nothing is saved and nothing else is written. There is no return from it (R165): only reset clears the latch (R200). -/
def State.latch (s : State) (c : FatalCause) : State := s.setFault c

/-- An instruction that raises a fatal condition ends its step with the latch set (R161; `raise` of R8). -/
def raise (c : FatalCause) (s : State) : Result := .next (s.latch c)

/-- The fatal condition of an Invalid Operation (R66, R82): pc afterwards is a free value (R87, U2; log entry 3). -/
def State.latchInvalidOpcode (s : State) (w : Word) : State :=
  ((s.setPc (Config.freePc s.draws)).countDraw).latch (.invalidOpcode w)

/-! ## The head of a step -/

/-- A halted or a Faulted engine does nothing on a step (R80). -/
def State.frozen (s : State) : Bool := s.fault.isSome || s.halted

/-- The cells among the four at `a`, `a + 1`, `a + 2`, `a + 3` that exist (R43, R81). -/
def fetchWindow (m : Memory) (a : Nat) : List Word :=
  Memory.words m a (min 4 (Config.memWords - a))

/-- Fetch and decode (R81, R82). With `strict` (the spec's STRICT_LOOKAHEAD, D3) all four addresses must be in range. Without
it only the instruction's own Words must be (log entry 5). -/
def fetchDecode (strict : Bool) (m : Memory) (pc : Word) : Except FatalCause Instr :=
  if strict && decide ((fetchWindow m pc.toNat).length < 4) then .error (.memoryOutOfRange .fetch pc)
  else
    match decode (fetchWindow m pc.toNat) with
    | .ok (i, _) => .ok i
    | .error (.invalidOpcode w) => .error (.invalidOpcode w)
    | .error _ => .error (.memoryOutOfRange .fetch pc)

/-- A fatal condition met before any instruction runs: an invalid opcode leaves pc a free value (U2), a fetch out of range
leaves it unchanged (R81, R87). -/
def State.latchAtFetch (s : State) : FatalCause → State
  | .invalidOpcode w => s.latchInvalidOpcode w
  | c => s.latch c

/-- The head of a step (R80 to R82): the instruction to run, or, where none runs, the state the step ends in. -/
def issue (s : State) : Except State Instr :=
  if s.frozen then .error s
  else
    match fetchDecode Config.strictLookahead s.mem s.pc with
    | .ok i => .ok i
    | .error c => .error (s.latchAtFetch c)

/-- An engine whose next step can run an instruction: not halted, not Faulted, pc where a fetch can start (R80, R81). -/
def State.readied (s : State) : State :=
  { s with halted := false, fault := none, pc := if s.pc.toNat + 4 ≤ Config.memWords then s.pc else Config.resetPc }

end Sys2Proof.Machine
end

