-- ==== Sys2Proof/Machine/Operands.lean ====
section
/-! DEFINITION. The operand multiplexer: the class of an operand Word (R61), `val` (R83), `dst` (R84), and their use in a
meaning. -/

namespace Sys2Proof.Machine

/-- The class of an operand Word, by its value alone (R61). -/
inductive OperandClass where
  | literal (v : Word)
  | register (i : Fin 8)
  | invalid
  deriving DecidableEq, Repr

/-- The table of R61. -/
def classify (w : Word) : OperandClass :=
  if w.toNat ≤ Config.litMax then .literal w
  else if h : w.toNat - Config.regBase < 8 then .register ⟨w.toNat - Config.regBase, h⟩
  else .invalid

/-- `val(w)` (R83): a literal passes through, a register reference reads the register one level deep, anything else is
fatal. -/
def val (w : Word) (s : State) : Except FatalCause Word :=
  match classify w with
  | .literal v => .ok v
  | .register i => .ok (s.readReg i)
  | .invalid => .error (.invalidRegister w)

/-- `dst(w)` (R84): only a register reference names a destination (D6, log entry 12). -/
def dst (w : Word) : Except FatalCause (Fin 8) :=
  match classify w with
  | .register i => .ok i
  | .literal _ => .error (.invalidRegister w)
  | .invalid => .error (.invalidRegister w)

/-- Resolve a source operand and go on with its value, or raise (R85). -/
def withVal (w : Word) (s : State) (k : Word → Result) : Result :=
  match val w s with
  | .ok v => k v
  | .error c => raise c s

/-- Decode a destination operand and go on with its register, or raise (R85). -/
def withDst (w : Word) (s : State) (k : Fin 8 → Result) : Result :=
  match dst w with
  | .ok d => k d
  | .error c => raise c s

/-- Whether a Word is an address of memory (R45). -/
def inRange (a : Word) : Bool := decide (a.toNat < Config.memWords)

end Sys2Proof.Machine
end

