-- ==== Sys2Proof/Machine/Alu.lean ====
section
/-! DEFINITION. The arithmetic, logic and compare instructions (43_alu.md). The arithmetic is exact on naturals and narrowed
at the end (R120, R124 to R126, R130). -/

namespace Sys2Proof.Machine

/-- `add`: the exact sum modulo 32768 (R124). -/
def aluAdd (u v : Word) : Word := BitVec.ofNat 16 ((u.toNat + v.toNat) % Config.modulus)

/-- `mult`: the exact product modulo 32768 (R125). -/
def aluMult (u v : Word) : Word := BitVec.ofNat 16 (u.toNat * v.toNat % Config.modulus)

/-- `mod`: the true remainder, reduced modulo 32768 when `mask` (MOD_MASK15, conflict C1, D12) is set (R126). -/
def aluMod (mask : Bool) (u v : Word) : Word :=
  BitVec.ofNat 16 (if mask then u.toNat % v.toNat % Config.modulus else u.toNat % v.toNat)

/-- A logic result, masked to 15 bits when `mask` (ANDOR_MASK15, D11) is set. -/
def maskLogic (mask : Bool) (v : Word) : Word := if mask then v &&& Config.mask15 else v

/-- `and`: all 16 bits (R127). -/
def aluAnd (u v : Word) : Word := maskLogic Config.andOrMask15 (u &&& v)

/-- `or`: all 16 bits (R128). -/
def aluOr (u v : Word) : Word := maskLogic Config.andOrMask15 (u ||| v)

/-- `not`: the complement with bit 15 cleared (R129). -/
def aluNot (u : Word) : Word := ~~~u &&& Config.mask15

/-- The three-operand form (R120): destination, then two sources, then `check` on the resolved sources, then the write. -/
def alu3 (check : Word → Word → Option FatalCause) (f : Word → Word → Word) (a b c : Word) (s : State) : Result :=
  withDst a (s.advance 4) fun d => withVal b (s.advance 4) fun vb => withVal c (s.advance 4) fun vc =>
    match check vb vc with
    | some cause => raise cause (s.advance 4)
    | none => .next ((s.advance 4).writeReg d (f vb vc))

/-- The opcode has no check of its own (R88). -/
def noCheck (_ _ : Word) : Option FatalCause := none

/-- The check of `mod`: a zero divisor is fatal (R126, conflict C3). -/
def divisorCheck (_ v : Word) : Option FatalCause := if v = 0 then some .divideByZero else none

/-- `eq a b c` (R122; the relation is PRESUMED by the spec, log entry 10). -/
def execEq (a b c : Word) (s : State) : Result := alu3 noCheck (fun u v => boolWord (wordEq u v)) a b c s

/-- `gt a b c` (R123; the relation is PRESUMED by the spec, log entry 10). -/
def execGt (a b c : Word) (s : State) : Result := alu3 noCheck (fun u v => boolWord (wordGt u v)) a b c s

/-- `add a b c` (R124). -/
def execAdd (a b c : Word) (s : State) : Result := alu3 noCheck aluAdd a b c s

/-- `mult a b c` (R125). -/
def execMult (a b c : Word) (s : State) : Result := alu3 noCheck aluMult a b c s

/-- `mod a b c` (R126). -/
def execMod (a b c : Word) (s : State) : Result := alu3 divisorCheck (aluMod Config.modMask15) a b c s

/-- `and a b c` (R127). -/
def execAnd (a b c : Word) (s : State) : Result := alu3 noCheck aluAnd a b c s

/-- `or a b c` (R128). -/
def execOr (a b c : Word) (s : State) : Result := alu3 noCheck aluOr a b c s

/-- `not a b` (R129). -/
def execNot (a b : Word) (s : State) : Result :=
  withDst a (s.advance 3) fun d => withVal b (s.advance 3) fun vb => .next ((s.advance 3).writeReg d (aluNot vb))

end Sys2Proof.Machine
end

