-- ==== Sys2Proof/Machine/Control.lean ====
section
/-! DEFINITION. The control instructions (41_control.md): halt, noop, jmp, jt, jf, call, ret. Each meaning runs at the
instruction's own address: it advances pc first (R86), checks its operands in order (R85, R88), then writes. -/

namespace Sys2Proof.Machine

/-- `halt` (R100). -/
def execHalt (s : State) : Result := .next (s.advance 1).setHalted

/-- `noop` (R101): only the pc advance. -/
def execNoop (s : State) : Result := .next (s.advance 1)

/-- `jmp a` (R102): the target replaces the advanced pc. -/
def execJmp (a : Word) (s : State) : Result :=
  withVal a (s.advance 2) fun va => .next ((s.advance 2).setPc va)

/-- A conditional jump: both operands are resolved, taken or not (R89); the target replaces the advanced pc. -/
def jumpWhen (taken : Word → Bool) (a b : Word) (s : State) : Result :=
  withVal a (s.advance 3) fun va => withVal b (s.advance 3) fun vb =>
    .next (if taken va then (s.advance 3).setPc vb else s.advance 3)

/-- `jt a b` (R103; the condition is PRESUMED by the spec, log entry 10). -/
def execJt (a b : Word) (s : State) : Result := jumpWhen wordTrue a b s

/-- `jf a b` (R104; the condition is PRESUMED by the spec, log entry 10). -/
def execJf (a b : Word) (s : State) : Result := jumpWhen (fun v => !wordTrue v) a b s

/-- `call a` (R105): pushes the already-advanced pc, then jumps. -/
def execCall (a : Word) (s : State) : Result :=
  withVal a (s.advance 2) fun va => .next (((s.advance 2).pushWord (s.advance 2).pc).setPc va)

/-- `ret` (R106): jumps to the popped Word; on an empty stack it halts. -/
def execRet (s : State) : Result :=
  match (s.advance 1).popWord with
  | some (v, t) => .next (t.setPc v)
  | none => .next (s.advance 1).setHalted

end Sys2Proof.Machine
end

