-- ==== Sys2Proof/Machine/InputOutput.lean ====
section
/-! DEFINITION. The input and output instructions (45_io.md): out, in. -/

namespace Sys2Proof.Machine

/-- `out a` (R150): one byte, 0 to 255, at the end of OUT_STREAM. -/
def execOut (a : Word) (s : State) : Result :=
  withVal a (s.advance 2) fun va =>
    if va.toNat ≤ Config.outMax then .next ((s.advance 2).emit (va.setWidth 8))
    else raise (.cannotPrint va) (s.advance 2)

/-- `in a` (R152): the first byte of IN_STREAM, zero-extended. With no byte the step does not happen and nothing changes, pc
included (R92, log entry 8); the destination is checked before that. -/
def execInp (a : Word) (s : State) : Result :=
  withDst a (s.advance 2) fun d =>
    match s.inStream with
    | [] => .next s
    | b :: rest => .next (((s.advance 2).writeReg d (b.setWidth 16)).setIn rest)

end Sys2Proof.Machine
end

