-- ==== Sys2Proof/Machine/MemoryOps.lean ====
section
/-! DEFINITION. The memory instructions (44_memory_ops.md): rmem, wmem. The effective address is the resolved operand and
nothing else (R142). -/

namespace Sys2Proof.Machine

/-- `rmem a b` (R140): the cell at the resolved b goes to the register a names. -/
def execRmem (a b : Word) (s : State) : Result :=
  withDst a (s.advance 3) fun d => withVal b (s.advance 3) fun vb =>
    if inRange vb then .next ((s.advance 3).writeReg d (s.loadWord vb))
    else raise (.memoryOutOfRange .read vb) (s.advance 3)

/-- `wmem a b` (R141): the resolved b goes to the cell at the resolved a. -/
def execWmem (a b : Word) (s : State) : Result :=
  withVal a (s.advance 3) fun va => withVal b (s.advance 3) fun vb =>
    if inRange va then .next ((s.advance 3).storeWord va vb)
    else raise (.memoryOutOfRange .write va) (s.advance 3)

end Sys2Proof.Machine
end

