-- ==== Sys2Proof/Machine/MoveStack.lean ====
section
/-! DEFINITION. The move and stack instructions (42_move_stack.md): set, push, pop. -/

namespace Sys2Proof.Machine

/-- `set a b` (R110): the value is copied unmasked. -/
def execSet (a b : Word) (s : State) : Result :=
  withDst a (s.advance 3) fun d => withVal b (s.advance 3) fun vb => .next ((s.advance 3).writeReg d vb)

/-- `push a` (R111). -/
def execPush (a : Word) (s : State) : Result :=
  withVal a (s.advance 2) fun va => .next ((s.advance 2).pushWord va)

/-- `pop a` (R112): the destination is checked before the stack. -/
def execPop (a : Word) (s : State) : Result :=
  withDst a (s.advance 2) fun d =>
    match (s.advance 2).popWord with
    | some (v, t) => .next (t.writeReg d v)
    | none => raise .stackUnderflow (s.advance 2)

end Sys2Proof.Machine
end

