-- ==== Sys2Proof/Machine/Step.lean ====
section
/-! DEFINITION. One step (R85), and the placing of an instruction where the next step fetches it. -/

namespace Sys2Proof.Machine

/-- One step of the engine (R80, R85): the head of the step decides which instruction runs, if any, and `exec` runs it. -/
def step (s : State) : Host.Outcome State Fault Refusal :=
  match issue s with
  | .error t => .next t
  | .ok i => exec i s

/-- `s` with an instruction's four Words stored at pc, made ready to run it (log entry 7): where `s` is halted or Faulted, or
its pc lies above 32764, that is undone, since no fetch happens there (R80, R81). -/
def State.withFetchWord (s : State) (nbits w : Nat) : State :=
  s.readied.setMem (Memory.writeWords s.mem s.readied.pc.toNat (tableWords nbits w))

end Sys2Proof.Machine
end

