-- ==== Sys2Proof/Machine/Debug.lean ====
section
/-! DEFINITION. The debug port (R180 to R185): what the host's driver may do to the engine between two steps. -/

namespace Sys2Proof.Machine

/-- Why a debug request is refused; a refused request changes nothing (D20). -/
inductive DebugRefusal where
  /-- A register index above 7 (R181). -/
  | badIndex
  /-- A value above 65535 (R181). -/
  | badValue
  /-- A decode address above 32764 (R182). -/
  | badAddress
  /-- A writing operation on a Faulted engine (R185). -/
  | engineFaulted
  deriving DecidableEq, Repr

/-- What a decode answers (R182): a decoded instruction, or the Invalid marker with its Word (R66). -/
inductive Operation where
  | valid (i : Instr)
  | invalid (w : Word)
  deriving DecidableEq, Repr

/-- The raw operand Words an Operation carries; an Invalid one carries none (R82, R188). -/
def Operation.operands : Operation → List Word
  | .valid i => i.operands
  | .invalid _ => []

/-- `decode(address)` (R182): four Words read at an address up to 32764. -/
def operationAt (m : Memory) (address : Nat) : Option Operation :=
  if address + 4 ≤ Config.memWords then
    match decode (fetchWindow m address) with
    | .ok (i, _) => some (.valid i)
    | .error _ => some (.invalid (Memory.read m address))
  else none

/-- `get(i)` (R181). -/
def debugGet (i : Nat) (s : State) : Except DebugRefusal Word :=
  if h : i < 8 then .ok (s.readReg ⟨i, h⟩) else .error .badIndex

/-- `set(i, v)` (R181, R185). -/
def debugSet (i v : Nat) (s : State) : Except DebugRefusal State :=
  if s.fault.isSome then .error .engineFaulted
  else if h : i < 8 then (if v < 65536 then .ok (s.writeReg ⟨i, h⟩ (BitVec.ofNat 16 v)) else .error .badValue)
  else .error .badIndex

/-- `decode(address)` on the port; above 32764 it is refused, not a fault (R182, D20). -/
def debugDecode (address : Nat) (s : State) : Except DebugRefusal Operation :=
  match operationAt s.mem address with
  | some op => .ok op
  | none => .error .badAddress

/-- How far a listing moves past an Operation: its own length (R69, R182). The spec gives an Invalid Word no length: a free
value (N7, log entry 15). -/
def Operation.stride (address : Nat) : Operation → Nat
  | .valid i => i.length
  | .invalid w => Config.freeInvalidLength address w

/-- The lines of a listing: `count` consecutive Operations from `start`, ending where no four Words can be read. -/
def listing (m : Memory) : Nat → Nat → List (Nat × Operation)
  | _, 0 => []
  | start, count + 1 =>
    match operationAt m start with
    | none => []
    | some op => (start, op) :: listing m (start + op.stride start) count

/-- `disassemble_range(start, count)` (R182): addresses with raw Operations; the text of a line is the host's (R72, N15). -/
def disassembleRange (start count : Nat) (s : State) : Except DebugRefusal (List (Nat × Operation)) :=
  if start + 4 ≤ Config.memWords then .ok (listing s.mem start count) else .error .badAddress

/-- `disassemble_all()` (R182): bounded by the full address space. -/
def disassembleAll (s : State) : List (Nat × Operation) := listing s.mem 0 Config.memWords

/-- The Words of a snapshot: pc, the registers, the memory, the stack bottom to top (R34, R183). -/
def snapshotWords (s : State) : List Word :=
  s.pc :: (s.x.toList ++ (Memory.words s.mem 0 Config.memWords ++ s.stack))

/-- `dump()` (R183): the snapshot as bytes, each Word low byte first. It changes no state. -/
def dump (s : State) : List Byte := bytesOfWords (snapshotWords s)

/-- The engine with pc, registers, memory and stack replaced by a snapshot's Words; nothing else is touched and no value is
checked (R184, D19). -/
def State.withSnapshot (s : State) (ws : List Word) : State :=
  { s with
    pc := ws.getD 0 0
    x := Vector.ofFn fun i => ws.getD (1 + i.val) 0
    mem := Memory.ofWords 0 ((ws.drop 9).take Config.memWords)
    stack := ws.drop (9 + Config.memWords) }

/-- `restore(bytes)` (R184): a buffer that is too short or of odd length is rejected and fatal (conflict C7); a Faulted engine
refuses (R185). -/
def restore (bytes : List Byte) (s : State) : Except DebugRefusal State :=
  if s.fault.isSome then .error .engineFaulted
  else if bytes.length < Config.snapFixedBytes then .ok (s.latch .malformedSnapshot)
  else
    match wordsOfBytes bytes with
    | none => .ok (s.latch .malformedSnapshot)
    | some ws => .ok (s.withSnapshot ws)

end Sys2Proof.Machine
end

