-- ==== Sys2Proof/Machine/Loader.lean ====
section
/-! DEFINITION. The reset transaction with a program image (R200 to R204, R206), the arrival of input bytes (R153) and the
status the host reads (R24, R25). -/

namespace Sys2Proof.Machine

/-- Why a program image is refused (R204, D18). -/
inductive ImageError where
  /-- "a trailing odd byte is a malformed-input condition" (R203). -/
  | oddLength
  /-- More than 65536 bytes, that is more than 32768 Words. -/
  | tooLong
  deriving DecidableEq, Repr

/-- The Words of a program image: little-endian pairs, nothing checked about their values (R203). -/
def imageWords (bytes : List Byte) : Except ImageError (List Word) :=
  match wordsOfBytes bytes with
  | none => .error .oddLength
  | some ws => if ws.length ≤ Config.memWords then .ok ws else .error .tooLong

/-- The engine after reset with an image and an input stream (R33, R200): the only way out of the halted or the Faulted
condition. The count of free values goes on (log entry 4). -/
def hostReset (image : List Word) (input : List Byte) (s : State) : State :=
  { State.reset with mem := Memory.ofWords 0 image, inStream := input, draws := s.draws }

/-- Reset with a byte image; a malformed one is refused and the engine is not started (R204). -/
def loadImage (bytes : List Byte) (input : List Byte) (s : State) : Except ImageError State :=
  match imageWords bytes with
  | .ok ws => .ok (hostReset ws input s)
  | .error e => .error e

/-- The host appends bytes to IN_STREAM between steps (R153); nothing else lifts the wait of `in` (R92). -/
def provideInput (bytes : List Byte) (s : State) : State := s.setIn (s.inStream ++ bytes)

/-- The status the host reads (R24, R25, R206). -/
def status (s : State) : Bool × Option FatalCause := (s.halted, s.fault)

end Sys2Proof.Machine
end

