-- ==== Sys2Proof/Machine/Session.lean ====
section
/-! DEFINITION. The debug session (R186 to R190): host software that only decides when a step happens. It is no part of the
engine's state (R35); its text protocol is out of scope (R4). -/

namespace Sys2Proof.Machine

/-- The session's own state (R186). -/
structure Session where
  /-- The run-state: true is `Running`, false is `Stopped`. -/
  running : Bool
  /-- Breakpoint addresses, in the order they were added, without repeats. -/
  breakpoints : List Word
  /-- Watchpoint values: raw operand Words, not addresses (conflict C8). -/
  watchpoints : List Word
  deriving DecidableEq, Repr

/-- The engine, its session, and the snapshot stored at the fixed location, if there is one (log entry 18). -/
structure DebugSystem where
  engine : State
  session : Session
  snapshot : Option (List Byte)
  deriving DecidableEq, Repr

/-- Initially `Stopped`, both sets empty (R186). -/
def Session.initial : Session where
  running := false
  breakpoints := []
  watchpoints := []

/-- A parsed command line (the table of 60_exceptions.md section 6). -/
inductive Command where
  | save
  | restoreSnapshot
  | setRegister (i v : Nat)
  | getRegister (i : Nat)
  | stop
  | continue
  | breakpoint (a : Word)
  | watchpoint (w : Word)
  /-- The empty command: inspect and single-step. -/
  | inspect
  | disassemble (start count : Nat)
  | disassembleAll
  /-- Malformed arity or an unparsable argument (R190). -/
  | malformed
  /-- Any other first token. -/
  | unknown
  deriving DecidableEq, Repr

/-- What an answer says; its text is the host's (R4, N15). -/
inductive Answer where
  | bytesWritten (n : Nat)
  | bytesRead (n : Nat)
  | cannotReadState
  | registerSet (i v : Nat)
  | registerIs (i : Nat) (v : Word)
  | acknowledged
  | breakpointAdded (a : Word)
  | watchpointAdded (w : Word)
  | nextInstruction (address : Word) (op : Option Operation)
  | listed (lines : List (Nat × Operation))
  | unknownCommand
  | error
  deriving DecidableEq, Repr

/-- A set of Words gains a member (R186); nothing removes one (N20). -/
def addMember (w : Word) (l : List Word) : List Word := if w ∈ l then l else l ++ [w]

/-- Whether the breakpoint set holds the current pc (R187). -/
def breakpointHit (ses : Session) (s : State) : Bool := decide (s.pc ∈ ses.breakpoints)

/-- Whether the Operation at pc carries an operand Word in the watchpoint set (R188): raw Words, neither the opcode Word nor
the unused lookahead. Where nothing can be decoded there is nothing to match (log entry 18). -/
def watchpointHit (ses : Session) (s : State) : Bool :=
  match operationAt s.mem s.pc.toNat with
  | some op => op.operands.any fun w => decide (w ∈ ses.watchpoints)
  | none => false

/-- The checks made before every proposed step (R187, R188): a hit forces `Stopped`. -/
def consult (sys : DebugSystem) : DebugSystem :=
  if breakpointHit sys.session sys.engine || watchpointHit sys.session sys.engine then
    { sys with session := { sys.session with running := false } }
  else sys

/-- One command processed to completion, with its one answer (R190 and the table of 60_exceptions.md section 6). -/
def processCommand : Command → DebugSystem → DebugSystem × Answer
  | .save, sys => ({ sys with snapshot := some (dump sys.engine) }, .bytesWritten (dump sys.engine).length)
  | .restoreSnapshot, sys =>
    match sys.snapshot with
    | none => (sys, .cannotReadState)
    | some bytes =>
      match restore bytes sys.engine with
      | .error _ => (sys, .error)
      | .ok e => ({ sys with engine := e }, if e.fault.isSome then .error else .bytesRead bytes.length)
  | .setRegister i v, sys =>
    match debugSet i v sys.engine with
    | .error _ => (sys, .error)
    | .ok e => ({ sys with engine := e }, .registerSet i v)
  | .getRegister i, sys =>
    match debugGet i sys.engine with
    | .error _ => (sys, .error)
    | .ok v => (sys, .registerIs i v)
  | .stop, sys => ({ sys with session := { sys.session with running := false } }, .acknowledged)
  | .continue, sys => ({ sys with session := { sys.session with running := true } }, .acknowledged)
  | .breakpoint a, sys =>
    ({ sys with session := { sys.session with breakpoints := addMember a sys.session.breakpoints } }, .breakpointAdded a)
  | .watchpoint w, sys =>
    ({ sys with session := { sys.session with watchpoints := addMember w sys.session.watchpoints } }, .watchpointAdded w)
  | .inspect, sys => (sys, .nextInstruction sys.engine.pc (operationAt sys.engine.mem sys.engine.pc.toNat))
  | .disassemble start count, sys =>
    match disassembleRange start count sys.engine with
    | .error _ => (sys, .error)
    | .ok lines => (sys, .listed lines)
  | .disassembleAll, sys => (sys, .listed (disassembleAll sys.engine))
  | .malformed, sys => (sys, .error)
  | .unknown, sys => (sys, .unknownCommand)

/-- What the dispatch ends in: the caller performs one step, or the session waits for a command. -/
inductive Turn where
  | step
  | wait
  deriving DecidableEq, Repr

/-- What a dispatch leaves: the system, the answers in order, the commands not yet taken, and the turn. -/
structure Dispatched where
  system : DebugSystem
  answers : List Answer
  queue : List Command
  turn : Turn
  deriving DecidableEq, Repr

/-- The dispatch before a proposed step, over the commands queued (R189). `Running` drains the queue and then steps; `Stopped`
takes commands until one is the empty command or makes the session `Running`, and waits when there are no more. The run-state
is looked at before each command (log entry 16). -/
def dispatch : List Command → DebugSystem → Dispatched
  | [], sys => ⟨sys, [], [], if sys.session.running then .step else .wait⟩
  | c :: queue, sys =>
    let (sys', answer) := processCommand c sys
    if sys.session.running then
      let r := dispatch queue sys'
      { r with answers := answer :: r.answers }
    else if c = .inspect || sys'.session.running then ⟨sys', [answer], queue, .step⟩
    else
      let r := dispatch queue sys'
      { r with answers := answer :: r.answers }

/-- The state a step leaves; a step of this machine always leaves one. -/
def stepped (s : State) : State :=
  match step s with
  | .next t => t
  | .fault _ => s
  | .refused _ => s

/-- One turn of the driver (R186): consult the triggers, dispatch the commands, step if allowed. DESIGN CHOICE (log entry 24): the
turn makes no test of `halted` or of the latch. R186 ends the alternation at `halted`, which is the caller's to do, and is silent
on a Faulted engine; a turn asked for there still consults and takes commands, and its step changes nothing (R80). -/
def driverTurn (queue : List Command) (sys : DebugSystem) : Dispatched :=
  let r := dispatch queue (consult sys)
  match r.turn with
  | .step => { r with system := { r.system with engine := stepped r.system.engine } }
  | .wait => r

end Sys2Proof.Machine
end

