-- ==== Sys2Proof/Safety.lean ====
section
/-! DEFINITION. What counts as a good state and a good end of a run, and the words in which the statements speak of operands. -/

namespace Sys2Proof.Machine

/-- A source operand Word has a value in a state (R61, R83): a literal is itself, a register reference is what the register
holds. -/
abbrev SourceValue (s : State) (w v : Word) : Prop :=
  (w.toNat ≤ 32767 ∧ v = w) ∨ ∃ r : Fin 8, w.toNat = 32768 + r.val ∧ v = s.x[r]

/-- A destination operand Word names a register (R61, R84). -/
abbrev DestIndex (w : Word) (d : Fin 8) : Prop := w.toNat = 32768 + d.val

/-- An operand Word no source position accepts (R67). -/
abbrev BadSource (w : Word) : Prop := 32776 ≤ w.toNat

/-- An operand Word no destination position accepts (R67, D6). -/
abbrev BadDest (w : Word) : Prop := w.toNat < 32768 ∨ 32776 ≤ w.toNat

/-- An operand Word its role does not accept. -/
abbrev BadOperand : Role × Word → Prop
  | (.destination, w) => BadDest w
  | (.source, w) => BadSource w

/-- The engine can fetch (R81): not halted, not Faulted, pc at most 32764. -/
abbrev CanFetch (s : State) : Prop := s.halted = false ∧ s.fault = none ∧ s.pc.toNat ≤ 32764

/-- The next instruction decodes to `i`: the four Words at pc are those of `i`, then lookahead (R81, R82). -/
abbrev NextIs (s : State) (i : Instr) : Prop :=
  ∃ rest, decode [Memory.read s.mem s.pc.toNat, Memory.read s.mem (s.pc.toNat + 1), Memory.read s.mem (s.pc.toNat + 2),
    Memory.read s.mem (s.pc.toNat + 3)] = .ok (i, rest)

/-- The registers, the stack, the memory and the streams are as before, and so is `halted`. -/
abbrev SameButPcAndFault (s t : State) : Prop :=
  t.x = s.x ∧ t.stack = s.stack ∧ t.mem = s.mem ∧ t.outStream = s.outStream ∧ t.inStream = s.inStream ∧ t.halted = s.halted

/-- The invariant of the model: the memory has its canonical form (log entry 1), and an engine is not both halted and
Faulted (R161: "a Faulted engine is not halted"). -/
abbrev State.Inv (s : State) : Prop := s.mem.wf = true ∧ ¬(s.halted = true ∧ s.fault.isSome = true)

/-- A run has ended (R207): normally, or by a fatal condition. -/
abbrev State.ended (s : State) : Prop := s.halted = true ∨ s.fault.isSome = true

/-- A good end of a run (R161, R163, R207): halted and not Faulted. -/
abbrev State.endedWell (s : State) : Prop := s.halted = true ∧ s.fault = none

/-- A state a run may safely be in: no fatal condition has been met (R161). -/
abbrev State.safe (s : State) : Prop := s.fault = none

/-- The engine waits for input (R92, R175): its next instruction is `in` with a valid destination, and no byte is there. -/
abbrev State.waiting (s : State) : Prop :=
  CanFetch s ∧ s.inStream = [] ∧ ∃ a d, NextIs s (.inp a) ∧ DestIndex a d

end Sys2Proof.Machine
end

