-- ==== Sys2Proof/Certificates/Slice0/Obligations.lean ====
section
/-! DEFINITION. The statements about the engine, each from a numbered rule of spec/. A statement's docstring names the rule
it formalises, and the decision, log entry or general-knowledge passage where one of its clauses rests on that. -/

open Sys2Proof Sys2Proof.Machine

/-! ## Shapes shared by several statements -/

/-- The state an instruction of `n` Words leaves when it raises a fatal condition after the advance (R87): pc advanced, the
cause recorded, nothing else written. -/
abbrev Sys2Proof.Machine.faultedAfter (n : Word) (c : FatalCause) (s : State) : State :=
  { s with pc := s.pc + n, fault := some c }

/-- The law of a three-operand instruction with no check of its own (R120): its Words, its result where all operands are
valid, and the operand faults in the order a, b, c. -/
abbrev Sys2Proof.Machine.ThreeOperandLaw (op : Word) (mk : Word → Word → Word → Instr) (f : Nat → Nat → Nat) : Prop :=
  ∀ (s : State) (a b c : Word),
    encode (mk a b c) = [op, a, b, c] ∧
    (∀ (d : Fin 8) (vb vc : Word), DestIndex a d → SourceValue s b vb → SourceValue s c vc →
      exec (mk a b c) s =
        .next { s with pc := s.pc + 4, x := s.x.set d (BitVec.ofNat 16 (f vb.toNat vc.toNat)) }) ∧
    (BadDest a → exec (mk a b c) s = .next (faultedAfter 4 (.invalidRegister a) s)) ∧
    (¬BadDest a → BadSource b → exec (mk a b c) s = .next (faultedAfter 4 (.invalidRegister b) s)) ∧
    (¬BadDest a → ¬BadSource b → BadSource c → exec (mk a b c) s = .next (faultedAfter 4 (.invalidRegister c) s))

/-! ## Encoding -/

/-- Every instruction, with every operand Word, is read back from its own Words, whatever follows them (R60, R62, R82). -/
def Obligations.DecodeInvertsEncode : Prop :=
  ∀ (i : Instr) (rest : List Word), decode (encode i ++ rest) = .ok (i, rest)

/-- Words that decode are exactly the Words of the instruction read, followed by the rest: no Word has two meanings (R68). -/
def Obligations.EncodeInvertsDecode : Prop :=
  ∀ (ws rest : List Word) (i : Instr), decode ws = .ok (i, rest) → encode i ++ rest = ws

/-- The opcode map of R65: each instruction's Words, opcode number first, and the mnemonic, the arity and the length of each.
The set is closed: no instruction has an opcode above 21. -/
def Obligations.OpcodeMapOfEveryInstruction : Prop :=
  (∀ i : Instr, i.opcode.toNat ≤ 21 ∧ i.length = i.arity + 1) ∧ ∀ a b c : Word,
    (encode .halt = [0] ∧ encode (.set a b) = [1, a, b] ∧ encode (.push a) = [2, a] ∧ encode (.pop a) = [3, a] ∧
     encode (.eq a b c) = [4, a, b, c] ∧ encode (.gt a b c) = [5, a, b, c] ∧ encode (.jmp a) = [6, a] ∧
     encode (.jt a b) = [7, a, b] ∧ encode (.jf a b) = [8, a, b] ∧ encode (.add a b c) = [9, a, b, c] ∧
     encode (.mult a b c) = [10, a, b, c] ∧ encode (.mod a b c) = [11, a, b, c] ∧ encode (.and a b c) = [12, a, b, c] ∧
     encode (.or a b c) = [13, a, b, c] ∧ encode (.not a b) = [14, a, b] ∧ encode (.rmem a b) = [15, a, b] ∧
     encode (.wmem a b) = [16, a, b] ∧ encode (.call a) = [17, a] ∧ encode .ret = [18] ∧ encode (.out a) = [19, a] ∧
     encode (.inp a) = [20, a] ∧ encode .noop = [21]) ∧
    ([Instr.halt, .set a b, .push a, .pop a, .eq a b c, .gt a b c, .jmp a, .jt a b, .jf a b, .add a b c, .mult a b c,
      .mod a b c, .and a b c, .or a b c, .not a b, .rmem a b, .wmem a b, .call a, .ret, .out a, .inp a, .noop].map
        fun i => (i.mnemonic, i.arity, i.length)) =
      [("halt", 0, 1), ("set", 2, 3), ("push", 1, 2), ("pop", 1, 2), ("eq", 3, 4), ("gt", 3, 4), ("jmp", 1, 2),
       ("jt", 2, 3), ("jf", 2, 3), ("add", 3, 4), ("mult", 3, 4), ("mod", 3, 4), ("and", 3, 4), ("or", 3, 4),
       ("not", 2, 3), ("rmem", 2, 3), ("wmem", 2, 3), ("call", 1, 2), ("ret", 0, 1), ("out", 1, 2), ("in", 1, 2),
       ("noop", 0, 1)]

/-- A few Words written out from R61, R62 and R65 decode to the instructions they stand for: one of each family. -/
def Obligations.SampleWordsDecode : Prop :=
  decode [0b0000000000001001, 0b1000000000000000, 0b1000000000000001, 0b0000000000111100] =
      .ok (.add 32768 32769 60, []) ∧
  decode [0b0000000000000001, 0b1000000000000011, 0b0000010011010010] = .ok (.set 32771 1234, []) ∧
  decode [0b0000000000010000, 0b0000000000000011, 0b0000000001100011] = .ok (.wmem 3 99, []) ∧
  decode [0b0000000000010001, 0b0000000011001000] = .ok (.call 200, []) ∧
  decode [0b0000000000010100, 0b1000000000000000] = .ok (.inp 32768, []) ∧
  decode [0b0000000000000000] = .ok (.halt, [])

/-- R82 and R66: an opcode Word up to 21 gives the instruction with that number, carrying the first arity Words raw and leaving the
rest of the lookahead; an opcode Word above 21 decodes to Invalid, and a step that fetches it raises `InvalidOpcode`. -/
def Obligations.DecodeCarriesArityWords : Prop :=
  ∀ w0 w1 w2 w3 : Word,
    (w0.toNat ≤ 21 → ∃ i, decode [w0, w1, w2, w3] = .ok (i, [w1, w2, w3].drop i.arity) ∧
      i.opcode = w0 ∧ i.operands = [w1, w2, w3].take i.arity ∧ i.length = i.arity + 1) ∧
    (21 < w0.toNat → decode [w0, w1, w2, w3] = .error (.invalidOpcode w0) ∧
      ∀ s : State, CanFetch s → Memory.read s.mem s.pc.toNat = w0 →
        ∃ t, step s = .next t ∧ t.fault = some (.invalidOpcode w0))

/-! ## The step -/

/-- R85: where the engine can fetch, a step is `exec` of the decoded instruction at the same state; each meaning makes its own
pc advance. It holds for every decoded instruction, well-formed or not. -/
def Obligations.StepRunsDecodedInstruction : Prop :=
  ∀ (s : State) (i : Instr), CanFetch s → NextIs s i → step s = exec i s

/-- R80: a step of a Faulted engine (the latch is decision D4) or of a halted engine changes nothing. -/
def Obligations.FrozenEngineStepsToItself : Prop :=
  ∀ s : State, s.fault.isSome = true ∨ s.halted = true → step s = .next s

/-- R81 (decision D3, log entry 13): a step that begins with pc above 32764 raises `MemoryOutOfRange(fetch, pc)` and changes
nothing else, whatever memory holds. -/
def Obligations.FetchAboveLimitFaults : Prop :=
  ∀ s : State, s.halted = false → s.fault = none → 32764 < s.pc.toNat →
    step s = .next { s with fault := some (.memoryOutOfRange .fetch s.pc) }

/-- Executing an opcode Word of 22 to 65535 records `InvalidOpcode` with the Word, writes nothing but pc (decision D9, log
entry 11), of which nothing is said (U2, log entry 3), and every later step changes nothing (decision D4). -/
def Obligations.InvalidOpcodeIsFatal : Prop :=
  ∀ s : State, CanFetch s → 22 ≤ (Memory.read s.mem s.pc.toNat).toNat →
    ∃ t, step s = .next t ∧ t.fault = some (.invalidOpcode (Memory.read s.mem s.pc.toNat)) ∧ SameButPcAndFault s t ∧
      step t = .next t

/-- R93: from every state a step gives a next state; the interface's fault and refusal outcomes never occur. -/
def Obligations.StepAlwaysGivesNextState : Prop :=
  ∀ s : State, ∃ t, step s = .next t

/-- R83: `val` passes a literal through, reads the register a reference names (one level deep, all 16 bits), and raises
`InvalidRegister` with the Word on anything else. -/
def Obligations.OperandMultiplexer : Prop :=
  ∀ (s : State) (w : Word),
    (w.toNat ≤ 32767 → val w s = .ok w) ∧
    (∀ r : Fin 8, w.toNat = 32768 + r.val → val w s = .ok s.x[r]) ∧
    (32776 ≤ w.toNat → val w s = .error (.invalidRegister w))

/-- R84 (a literal is refused by decision D6, log entry 12): `dst` gives the index of a register reference and raises
`InvalidRegister` with the Word on anything else. -/
def Obligations.DestinationMustBeRegister : Prop :=
  ∀ w : Word,
    (∀ r : Fin 8, w.toNat = 32768 + r.val → dst w = .ok r) ∧
    (w.toNat ≤ 32767 ∨ 32776 ≤ w.toNat → dst w = .error (.invalidRegister w))

/-- R88, R89 (decisions D9 and D10, log entry 11): the first operand in the order a, b, c that its role does not accept ends
the step with `InvalidRegister` and that Word, pc advanced and nothing else written. -/
def Obligations.FirstBadOperandFaults : Prop :=
  ∀ (s : State) (i : Instr) (before after : List (Role × Word)) (bad : Role × Word),
    i.operandRoles = before ++ bad :: after → (∀ p ∈ before, ¬BadOperand p) → BadOperand bad →
    exec i s = .next (faultedAfter (BitVec.ofNat 16 i.length) (.invalidRegister bad.2) s)

/-- The check WellFormed makes is exactly freedom from `InvalidRegister` (R67, with D6): a well-formed instruction never
raises it, and an ill-formed one raises it in every state. -/
def Obligations.WellFormedIffNoInvalidRegister : Prop :=
  ∀ (i : Instr) (s : State), s.fault = none →
    (i.wellFormed = true → ∀ t w, exec i s = .next t → t.fault ≠ some (.invalidRegister w)) ∧
    (i.wellFormed = false → ∃ t w, exec i s = .next t ∧ t.fault = some (.invalidRegister w))

/-! ## Control instructions -/

/-- R100: `halt` sets the halted flag and leaves pc one Word on; nothing else changes. -/
def Obligations.HaltSetsHalted : Prop :=
  ∀ s : State, encode .halt = [0] ∧ exec .halt s = .next { s with pc := s.pc + 1, halted := true }

/-- R101 (that it has no effect is general knowledge, G3, log entry 10): `noop` only advances pc. -/
def Obligations.NoopOnlyAdvances : Prop :=
  ∀ s : State, encode .noop = [21] ∧ exec .noop s = .next { s with pc := s.pc + 1 }

/-- R102 (the operand's role: G2, log entry 9): `jmp` puts the value of its operand in pc, unchecked; an Invalid operand is
fatal. -/
def Obligations.JmpLoadsTarget : Prop :=
  ∀ (s : State) (a : Word), encode (.jmp a) = [6, a] ∧
    (∀ va, SourceValue s a va → exec (.jmp a) s = .next { s with pc := va }) ∧
    (BadSource a → exec (.jmp a) s = .next (faultedAfter 2 (.invalidRegister a) s))

/-- R103 (condition and roles: D8, log entry 10): `jt` jumps when its first operand is any nonzero Word, else continues; both
operands are checked, taken or not. -/
def Obligations.JtJumpsWhenNonzero : Prop :=
  ∀ (s : State) (a b : Word), encode (.jt a b) = [7, a, b] ∧
    (∀ va vb, SourceValue s a va → SourceValue s b vb →
      exec (.jt a b) s = .next (if va ≠ 0 then { s with pc := vb } else { s with pc := s.pc + 3 })) ∧
    (BadSource a → exec (.jt a b) s = .next (faultedAfter 3 (.invalidRegister a) s)) ∧
    (¬BadSource a → BadSource b → exec (.jt a b) s = .next (faultedAfter 3 (.invalidRegister b) s))

/-- R104 (condition and roles: D8, log entry 10): `jf` jumps when its first operand is zero, else continues; both operands are
checked, taken or not. -/
def Obligations.JfJumpsWhenZero : Prop :=
  ∀ (s : State) (a b : Word), encode (.jf a b) = [8, a, b] ∧
    (∀ va vb, SourceValue s a va → SourceValue s b vb →
      exec (.jf a b) s = .next (if va = 0 then { s with pc := vb } else { s with pc := s.pc + 3 })) ∧
    (BadSource a → exec (.jf a b) s = .next (faultedAfter 3 (.invalidRegister a) s)) ∧
    (¬BadSource a → BadSource b → exec (.jf a b) s = .next (faultedAfter 3 (.invalidRegister b) s))

/-- R105 (that it jumps to its operand: D7, log entry 10): `call` pushes the already-advanced pc and jumps; where it faults
nothing is pushed. -/
def Obligations.CallPushesReturnAddress : Prop :=
  ∀ (s : State) (a : Word), encode (.call a) = [17, a] ∧
    (∀ va, SourceValue s a va →
      exec (.call a) s = .next { s with pc := va, stack := s.stack ++ [s.pc + 2] }) ∧
    (BadSource a → exec (.call a) s = .next (faultedAfter 2 (.invalidRegister a) s))

/-- R106 (that it jumps to the popped Word: G3, log entry 10): `ret` removes the top of the stack and jumps to it; on an empty
stack it halts. -/
def Obligations.RetPopsOrHalts : Prop :=
  ∀ s : State, encode .ret = [18] ∧
    (∀ (below : List Word) (v : Word), s.stack = below ++ [v] →
      exec .ret s = .next { s with pc := v, stack := below }) ∧
    (s.stack = [] → exec .ret s = .next { s with pc := s.pc + 1, halted := true })

/-! ## Move and stack instructions -/

/-- R110 (roles: D7, log entry 9): `set` copies the value of b, all 16 bits, to the register a names. -/
def Obligations.SetCopiesWord : Prop :=
  ∀ (s : State) (a b : Word), encode (.set a b) = [1, a, b] ∧
    (∀ (d : Fin 8) (vb : Word), DestIndex a d → SourceValue s b vb →
      exec (.set a b) s = .next { s with pc := s.pc + 3, x := s.x.set d vb }) ∧
    (BadDest a → exec (.set a b) s = .next (faultedAfter 3 (.invalidRegister a) s)) ∧
    (¬BadDest a → BadSource b → exec (.set a b) s = .next (faultedAfter 3 (.invalidRegister b) s))

/-- R111 (roles: D7, log entry 9): `push` appends the value of a to the stack. -/
def Obligations.PushAppendsWord : Prop :=
  ∀ (s : State) (a : Word), encode (.push a) = [2, a] ∧
    (∀ va, SourceValue s a va → exec (.push a) s = .next { s with pc := s.pc + 2, stack := s.stack ++ [va] }) ∧
    (BadSource a → exec (.push a) s = .next (faultedAfter 2 (.invalidRegister a) s))

/-- R112 (roles: D7, log entry 9): `pop` moves the top of the stack to the register a names; a bad destination is fatal before
an empty stack is. -/
def Obligations.PopTakesTop : Prop :=
  ∀ (s : State) (a : Word), encode (.pop a) = [3, a] ∧
    (∀ (d : Fin 8) (below : List Word) (v : Word), DestIndex a d → s.stack = below ++ [v] →
      exec (.pop a) s = .next { s with pc := s.pc + 2, x := s.x.set d v, stack := below }) ∧
    (¬BadDest a → s.stack = [] → exec (.pop a) s = .next (faultedAfter 2 .stackUnderflow s)) ∧
    (BadDest a → exec (.pop a) s = .next (faultedAfter 2 (.invalidRegister a) s))

/-! ## Arithmetic, logic and compare instructions -/

/-- R122 (relation and roles: D7, D8, log entries 9 and 10): `eq` stores 1 when the two full Words are equal, else 0. -/
def Obligations.EqStoresEquality : Prop :=
  ThreeOperandLaw 4 .eq fun u v => if u = v then 1 else 0

/-- R123 (relation and roles: D7, D8, log entries 9 and 10): `gt` stores 1 when the first source is greater, unsigned. -/
def Obligations.GtStoresUnsignedGreater : Prop :=
  ThreeOperandLaw 5 .gt fun u v => if u > v then 1 else 0

/-- R124: `add` stores the exact sum modulo 32768. (That a literal destination is a fault is decision D6, log entry 12.) -/
def Obligations.AddStoresSumModulo32768 : Prop :=
  ThreeOperandLaw 9 .add fun u v => (u + v) % 32768

/-- R125 (roles: D7, log entry 9): `mult` stores the exact product modulo 32768. -/
def Obligations.MultStoresProductModulo32768 : Prop :=
  ThreeOperandLaw 10 .mult fun u v => u * v % 32768

/-- R126 (roles: D7, log entry 9; the final reduction: conflict C1, D12, log entry 14): `mod` stores the remainder reduced
modulo 32768; a zero divisor is fatal after the operands are checked. -/
def Obligations.ModStoresRemainder : Prop :=
  ∀ (s : State) (a b c : Word), encode (.mod a b c) = [11, a, b, c] ∧
    (∀ (d : Fin 8) (vb vc : Word), DestIndex a d → SourceValue s b vb → SourceValue s c vc → vc ≠ 0 →
      exec (.mod a b c) s =
        .next { s with pc := s.pc + 4, x := s.x.set d (BitVec.ofNat 16 (vb.toNat % vc.toNat % 32768)) }) ∧
    (¬BadDest a → ¬BadSource b → SourceValue s c 0 → exec (.mod a b c) s = .next (faultedAfter 4 .divideByZero s)) ∧
    (BadDest a → exec (.mod a b c) s = .next (faultedAfter 4 (.invalidRegister a) s)) ∧
    (¬BadDest a → BadSource b → exec (.mod a b c) s = .next (faultedAfter 4 (.invalidRegister b) s)) ∧
    (¬BadDest a → ¬BadSource b → BadSource c → exec (.mod a b c) s = .next (faultedAfter 4 (.invalidRegister c) s))

/-- R127 (roles: D7, log entry 9; no mask: D11, log entry 14): `and` stores the bitwise AND of all 16 bits. -/
def Obligations.AndStoresBitwiseAnd : Prop :=
  ThreeOperandLaw 12 .and fun u v => u &&& v

/-- R128 (roles: D7, log entry 9; no mask: D11, log entry 14): `or` stores the bitwise OR of all 16 bits. -/
def Obligations.OrStoresBitwiseOr : Prop :=
  ThreeOperandLaw 13 .or fun u v => u ||| v

/-- R129 (roles: D7, log entry 9): `not` stores 32767 minus the low 15 bits of the value, bit by bit: every bit below 15 is
complemented and bit 15 is 0. -/
def Obligations.NotStoresComplement15 : Prop :=
  ∀ (s : State) (a b : Word), encode (.not a b) = [14, a, b] ∧
    (∀ (d : Fin 8) (vb : Word), DestIndex a d → SourceValue s b vb →
      ∃ r : Word, exec (.not a b) s = .next { s with pc := s.pc + 3, x := s.x.set d r } ∧
        r.toNat = 32767 - vb.toNat % 32768 ∧ r.getLsbD 15 = false ∧ ∀ k < 15, r.getLsbD k = !vb.getLsbD k) ∧
    (BadDest a → exec (.not a b) s = .next (faultedAfter 3 (.invalidRegister a) s)) ∧
    (¬BadDest a → BadSource b → exec (.not a b) s = .next (faultedAfter 3 (.invalidRegister b) s))

/-! ## Memory instructions -/

/-- R140 (roles: D7, log entry 9): `rmem` copies the cell at the value of b to the register a names; an address above 32767 is
fatal. -/
def Obligations.RmemReadsCell : Prop :=
  ∀ (s : State) (a b : Word), encode (.rmem a b) = [15, a, b] ∧
    (∀ (d : Fin 8) (vb : Word), DestIndex a d → SourceValue s b vb → vb.toNat ≤ 32767 →
      exec (.rmem a b) s = .next { s with pc := s.pc + 3, x := s.x.set d (Memory.read s.mem vb.toNat) }) ∧
    (∀ vb, ¬BadDest a → SourceValue s b vb → 32767 < vb.toNat →
      exec (.rmem a b) s = .next (faultedAfter 3 (.memoryOutOfRange .read vb) s)) ∧
    (BadDest a → exec (.rmem a b) s = .next (faultedAfter 3 (.invalidRegister a) s)) ∧
    (¬BadDest a → BadSource b → exec (.rmem a b) s = .next (faultedAfter 3 (.invalidRegister b) s))

/-- R141 (roles: D7, log entry 9): `wmem` stores the value of b in the cell at the value of a and in no other; an address above
32767 is fatal. The canonical form of memory is a premise (an invariant every step keeps). -/
def Obligations.WmemStoresWord : Prop :=
  ∀ (s : State) (a b : Word), encode (.wmem a b) = [16, a, b] ∧
    (∀ va vb, s.mem.wf = true → SourceValue s a va → SourceValue s b vb → va.toNat ≤ 32767 →
      ∃ m, exec (.wmem a b) s = .next { s with pc := s.pc + 3, mem := m } ∧
        ∀ n, Memory.read m n = if n = va.toNat then vb else Memory.read s.mem n) ∧
    (∀ va, SourceValue s a va → ¬BadSource b → 32767 < va.toNat →
      exec (.wmem a b) s = .next (faultedAfter 3 (.memoryOutOfRange .write va) s)) ∧
    (BadSource a → exec (.wmem a b) s = .next (faultedAfter 3 (.invalidRegister a) s)) ∧
    (¬BadSource a → BadSource b → exec (.wmem a b) s = .next (faultedAfter 3 (.invalidRegister b) s))

/-! ## Input and output instructions -/

/-- R150: `out` appends the byte of its value to OUT_STREAM; a value above 255 is fatal and nothing is emitted. -/
def Obligations.OutEmitsByte : Prop :=
  ∀ (s : State) (a : Word), encode (.out a) = [19, a] ∧
    (∀ va, SourceValue s a va → va.toNat ≤ 255 →
      exec (.out a) s = .next { s with pc := s.pc + 2, outStream := s.outStream ++ [BitVec.ofNat 8 va.toNat] }) ∧
    (∀ va, SourceValue s a va → 255 < va.toNat → exec (.out a) s = .next (faultedAfter 2 (.cannotPrint va) s)) ∧
    (BadSource a → exec (.out a) s = .next (faultedAfter 2 (.invalidRegister a) s))

/-- R152, R92 (the wait and the check before it: D16, log entry 8): `in` moves the first byte of IN_STREAM, zero-extended, to
the register a names; with no byte nothing changes, pc included; a bad destination is fatal first, and consumes nothing. -/
def Obligations.InTakesByteOrWaits : Prop :=
  ∀ (s : State) (a : Word), encode (.inp a) = [20, a] ∧
    (∀ (d : Fin 8) (b : Byte) (rest : List Byte), DestIndex a d → s.inStream = b :: rest →
      exec (.inp a) s =
        .next { s with pc := s.pc + 2, x := s.x.set d (BitVec.ofNat 16 b.toNat), inStream := rest }) ∧
    (¬BadDest a → s.inStream = [] → exec (.inp a) s = .next s) ∧
    (BadDest a → exec (.inp a) s = .next (faultedAfter 2 (.invalidRegister a) s))

/-! ## Rules about the whole machine -/

/-- R121: whatever the inputs, the register written by add, mult, mod and not is below 32768 and by eq and gt is 0 or 1; and and
or stay below 32768 when both values are, and can set bit 15 when an input has it. (The last clause rests on decision D11, that
for mod on D12 and conflict C1; log entry 14.) -/
def Obligations.ResultRanges : Prop :=
  (∀ (s t : State) (i : Instr) (a b c : Word) (d : Fin 8), DestIndex a d → s.fault = none → exec i s = .next t →
    t.fault = none →
    ((i = .add a b c ∨ i = .mult a b c ∨ i = .mod a b c ∨ i = .not a b → t.x[d].toNat < 32768) ∧
     (i = .eq a b c ∨ i = .gt a b c → t.x[d] = 0 ∨ t.x[d] = 1) ∧
     (∀ vb vc, SourceValue s b vb → SourceValue s c vc → vb.toNat < 32768 → vc.toNat < 32768 →
       i = .and a b c ∨ i = .or a b c → t.x[d].toNat < 32768))) ∧
  (∃ (s t : State), exec (.and 32768 32769 32769) s = .next t ∧ t.x[(0 : Fin 8)].toNat ≥ 32768) ∧
  (∃ (s t : State), exec (.or 32768 32769 0) s = .next t ∧ t.x[(0 : Fin 8)].toNat ≥ 32768)

/-- R86: an instruction that does not alter control flow leaves the advanced pc, whether or not it faults; `call` pushes the
advanced pc; a jump's target, and the Word `ret` pops, replace it. (`in` with no byte does not take the step:
R92. The operands' roles and the conditions of jt and jf are G2, G3 and D8, log entries 9 and 10; the pc after a fault is R87's.) -/
def Obligations.PcAdvancedBeforeEffect : Prop :=
  ∀ (s t : State) (i : Instr), exec i s = .next t →
    ((∀ a, i ≠ .jmp a) ∧ (∀ a b, i ≠ .jt a b) ∧ (∀ a b, i ≠ .jf a b) ∧ (∀ a, i ≠ .call a) ∧ i ≠ .ret ∧
        (s.inStream = [] → ∀ a, i ≠ .inp a) → t.pc = s.pc + BitVec.ofNat 16 i.length) ∧
    (∀ a, i = .call a → ¬BadSource a → t.stack = s.stack ++ [s.pc + 2]) ∧
    (∀ a va, i = .jmp a ∨ i = .call a → SourceValue s a va → t.pc = va) ∧
    (∀ a b va vb, SourceValue s a va → SourceValue s b vb →
      (i = .jt a b → t.pc = if va ≠ 0 then vb else s.pc + 3) ∧ (i = .jf a b → t.pc = if va = 0 then vb else s.pc + 3)) ∧
    (∀ below v, i = .ret → s.stack = below ++ [v] → t.pc = v)

/-- FRAME of the instructions that write one register and nothing else (set, eq, gt, add, mult, mod, and, or, not, rmem; R22,
R87, R130): every other register, the stack, every cell of memory, both streams and `halted` are unchanged; the latch is
unchanged, or it holds a cause and then the destination is unchanged too. -/
def Obligations.FrameOfRegisterWriters : Prop :=
  ∀ (s t : State) (i : Instr) (a b c : Word),
    (i = .set a b ∨ i = .eq a b c ∨ i = .gt a b c ∨ i = .add a b c ∨ i = .mult a b c ∨ i = .mod a b c ∨ i = .and a b c ∨
      i = .or a b c ∨ i = .not a b ∨ i = .rmem a b) → exec i s = .next t →
    (∀ r : Fin 8, ¬DestIndex a r → t.x[r] = s.x[r]) ∧ t.stack = s.stack ∧
    (∀ n, Memory.read t.mem n = Memory.read s.mem n) ∧ t.outStream = s.outStream ∧ t.inStream = s.inStream ∧
    t.halted = s.halted ∧ t.draws = s.draws ∧ (t.fault = s.fault ∨ (t.fault.isSome = true ∧ t.x = s.x))

/-- FRAME of the stack instructions (push, pop, call, ret; R22, R26, R87): registers are unchanged but for the destination of
pop; below the pushed or popped top the stack is unchanged; every cell of memory and both streams are unchanged; `halted` is
unchanged but for ret. -/
def Obligations.FrameOfStackInstructions : Prop :=
  ∀ (s t : State) (i : Instr) (a : Word), (i = .push a ∨ i = .pop a ∨ i = .call a ∨ i = .ret) → exec i s = .next t →
    (∀ r : Fin 8, (i = .pop a → ¬DestIndex a r) → t.x[r] = s.x[r]) ∧
    (t.stack = s.stack ∨ (∃ v, t.stack = s.stack ++ [v] ∧ (i = .push a ∨ i = .call a)) ∨
      (∃ v, s.stack = t.stack ++ [v] ∧ (i = .pop a ∨ i = .ret))) ∧
    (∀ n, Memory.read t.mem n = Memory.read s.mem n) ∧ t.outStream = s.outStream ∧ t.inStream = s.inStream ∧
    (i ≠ .ret → t.halted = s.halted) ∧ t.draws = s.draws ∧
    (t.fault = s.fault ∨ (t.fault.isSome = true ∧ t.x = s.x ∧ t.stack = s.stack))

/-- FRAME of halt, noop, jmp, jt and jf (R22, R100 to R104): registers, stack, every cell of memory and both streams are
unchanged; `halted` changes only by halt. -/
def Obligations.FrameOfControlInstructions : Prop :=
  ∀ (s t : State) (i : Instr) (a b : Word), (i = .halt ∨ i = .noop ∨ i = .jmp a ∨ i = .jt a b ∨ i = .jf a b) →
    exec i s = .next t →
    (∀ r : Fin 8, t.x[r] = s.x[r]) ∧ t.stack = s.stack ∧ (∀ n, Memory.read t.mem n = Memory.read s.mem n) ∧
    t.outStream = s.outStream ∧ t.inStream = s.inStream ∧ (i ≠ .halt → t.halted = s.halted) ∧ t.draws = s.draws ∧
    (t.fault = s.fault ∨ (t.fault.isSome = true ∧ (i = .jmp a ∨ i = .jt a b ∨ i = .jf a b)))

/-- FRAME of wmem (R141): the address stored to is the value of a, by the function the meaning itself uses; every other cell,
and all else but pc and the latch, is unchanged, and where the latch is set every cell is. -/
def Obligations.FrameOfStore : Prop :=
  ∀ (s t : State) (a b : Word), exec (.wmem a b) s = .next t →
    (∀ va, val a s = .ok va → ∀ n, n ≠ va.toNat → Memory.read t.mem n = Memory.read s.mem n) ∧
    (∀ c, val a s = .error c → ∀ n, Memory.read t.mem n = Memory.read s.mem n) ∧
    (∀ r : Fin 8, t.x[r] = s.x[r]) ∧ t.stack = s.stack ∧ t.outStream = s.outStream ∧ t.inStream = s.inStream ∧
    t.halted = s.halted ∧ t.draws = s.draws ∧ (t.fault = s.fault ∨ (t.fault.isSome = true ∧ t.mem = s.mem))

/-- FRAME of out and in (R22, R150, R152, R87): out changes only OUT_STREAM, in only its destination register and IN_STREAM; a
fault changes neither. -/
def Obligations.FrameOfInputOutput : Prop :=
  ∀ (s t : State) (i : Instr) (a : Word), (i = .out a ∨ i = .inp a) → exec i s = .next t →
    (∀ r : Fin 8, (i = .inp a → ¬DestIndex a r) → t.x[r] = s.x[r]) ∧ t.stack = s.stack ∧
    (∀ n, Memory.read t.mem n = Memory.read s.mem n) ∧ t.halted = s.halted ∧ t.draws = s.draws ∧
    (i = .inp a → t.outStream = s.outStream) ∧ (i = .out a → t.inStream = s.inStream) ∧
    (t.fault = s.fault ∨ (t.fault.isSome = true ∧ t.x = s.x ∧ t.outStream = s.outStream ∧ t.inStream = s.inStream))

/-- THE INVARIANT: from every state whose memory has the canonical form and which is not both halted and Faulted (R161), a step
gives such a state again. (The form is the model's own, log entry 1.) -/
def Obligations.StepKeepsInvariant : Prop :=
  ∀ s t : State, s.Inv → step s = .next t → t.Inv

/-- The state after reset meets the invariant. -/
def Obligations.ResetMeetsInvariant : Prop :=
  State.reset.Inv

/-- R33, R200, R204: the engine after reset with an image and an input stream, from any state: registers and pc 0, not halted, not
Faulted, stack empty (D24), the image over a prefix of a memory otherwise 0, nothing emitted. An image of more than 65536 bytes is
refused (D18, log entry 20). State.reset is the case of the empty image and no input (log entries 6 and 7). -/
def Obligations.ResetState : Prop :=
  (∀ (s : State) (image : List Word) (input : List Byte), image.length ≤ 32768 →
    (∀ r : Fin 8, (hostReset image input s).x[r] = 0) ∧ (hostReset image input s).pc = 0 ∧
    (hostReset image input s).halted = false ∧ (hostReset image input s).fault = none ∧
    (hostReset image input s).stack = [] ∧ (∀ n, Memory.read (hostReset image input s).mem n = image.getD n 0) ∧
    (hostReset image input s).outStream = [] ∧ (hostReset image input s).inStream = input) ∧
  (∀ (s : State) (bytes input : List Byte), bytes.length % 2 = 0 → 65536 < bytes.length →
    loadImage bytes input s = .error .tooLong) ∧
  hostReset [] [] State.reset = State.reset

/-- R163: the engine becomes halted in exactly two ways, `halt` and `ret` on an empty stack; after either every step keeps all
state. -/
def Obligations.HaltedExactlyByHaltAndEmptyRet : Prop :=
  (∀ s t : State, step s = .next t → s.halted = false → t.halted = true →
    CanFetch s ∧ (NextIs s .halt ∨ (NextIs s .ret ∧ s.stack = []))) ∧
  (∀ s : State, CanFetch s → NextIs s .halt ∨ (NextIs s .ret ∧ s.stack = []) →
    ∃ t, step s = .next t ∧ t.halted = true ∧ t.fault = none) ∧
  (∀ s : State, s.halted = true → step s = .next s)

/-- R87, R161 (decision D9, log entry 11): a step that meets a fatal condition writes nothing but pc and the latch, and leaves
`halted` as it was. -/
def Obligations.FaultWritesOnlyPc : Prop :=
  ∀ s t : State, step s = .next t → s.fault = none → t.fault ≠ none → SameButPcAndFault s t ∧ t.halted = false

/-- R160: which fatal condition which instruction raises, and when; the two that name no instruction come from the fetch, and
`MalformedSnapshot` from no step. -/
def Obligations.FaultCausesByInstruction : Prop :=
  ∀ (s t : State) (i : Instr) (c : FatalCause), CanFetch s → NextIs s i → step s = .next t → t.fault = some c →
    (∃ role w, c = .invalidRegister w ∧ (role, w) ∈ i.operandRoles ∧ BadOperand (role, w)) ∨
    (∃ a, c = .stackUnderflow ∧ i = .pop a ∧ s.stack = []) ∨
    (∃ a b d, c = .divideByZero ∧ i = .mod a b d ∧ SourceValue s d 0) ∨
    (∃ a b v, c = .memoryOutOfRange .read v ∧ i = .rmem a b ∧ SourceValue s b v ∧ 32767 < v.toNat) ∨
    (∃ a b v, c = .memoryOutOfRange .write v ∧ i = .wmem a b ∧ SourceValue s a v ∧ 32767 < v.toNat) ∨
    (∃ a v, c = .cannotPrint v ∧ i = .out a ∧ SourceValue s a v ∧ 255 < v.toNat)

/-- R26, R31, R40: memory is changed by wmem alone, the stack by push, pop, call and ret alone, OUT_STREAM by out alone and
IN_STREAM by in alone. -/
def Obligations.EachStoreChangedByItsInstructions : Prop :=
  ∀ s t : State, step s = .next t →
    (t.mem ≠ s.mem → ∃ a b, NextIs s (.wmem a b)) ∧
    (t.stack ≠ s.stack → (∃ a, NextIs s (.push a) ∨ NextIs s (.pop a) ∨ NextIs s (.call a)) ∨ NextIs s .ret) ∧
    (t.outStream ≠ s.outStream → ∃ a, NextIs s (.out a)) ∧
    (t.inStream ≠ s.inStream → ∃ a, NextIs s (.inp a))

/-- R53 (the operands' roles: G2, log entry 9): a store is seen by the very next fetch, whichever cell it changes, and the storing instruction completes as it was
fetched even where it overwrites its own Words. -/
def Obligations.StoreSeenByNextFetch : Prop :=
  ∀ (s : State) (a b va vb : Word), CanFetch s → s.mem.wf = true → NextIs s (.wmem a b) → SourceValue s a va →
    SourceValue s b vb → va.toNat ≤ 32767 →
    ∃ t, step s = .next t ∧ t.pc = s.pc + 3 ∧ t.fault = none ∧
      (∀ n, Memory.read t.mem n = if n = va.toNat then vb else Memory.read s.mem n) ∧
      (∀ i, CanFetch t → NextIs t i → step t = exec i t) ∧
      (CanFetch t → va = t.pc → 21 < vb.toNat → ∃ u, step t = .next u ∧ u.fault = some (.invalidOpcode vb))

/-- R107 (decision D17): `jmp`, `call`, a taken `jt` or `jf`, and `ret` to an address above 32764 complete; the step after them
raises `MemoryOutOfRange(fetch, target)` and changes nothing else. -/
def Obligations.BadTargetFaultsAtNextFetch : Prop :=
  ∀ (s : State) (i : Instr) (target : Word), CanFetch s → NextIs s i → 32764 < target.toNat →
    ((∃ a, (i = .jmp a ∨ i = .call a) ∧ SourceValue s a target) ∨
     (∃ a b u, ((i = .jt a b ∧ u ≠ 0) ∨ (i = .jf a b ∧ u = 0)) ∧ SourceValue s a u ∧ SourceValue s b target) ∨
     (i = .ret ∧ ∃ below, s.stack = below ++ [target])) →
    ∃ t, step s = .next t ∧ t.pc = target ∧ t.fault = none ∧ t.halted = false ∧
      step t = .next { t with fault := some (.memoryOutOfRange .fetch target) }

/-- R92, R175 (decision D16, log entry 8): a waiting engine steps to itself, and as soon as the host appends a byte the same
step completes with it. -/
def Obligations.InputWaitLiftedByHost : Prop :=
  ∀ (s : State) (a : Word) (d : Fin 8), CanFetch s → NextIs s (.inp a) → DestIndex a d → s.inStream = [] →
    step s = .next s ∧
    ∀ (b : Byte) (bs : List Byte), step (provideInput (b :: bs) s) =
      .next { s with pc := s.pc + 2, x := s.x.set d (BitVec.ofNat 16 b.toNat), inStream := bs }

/-- R31: OUT_STREAM is only appended to and never read back, so with other bytes emitted before, the same step is made and the
same bytes are added; of IN_STREAM only the first byte is ever removed, and a step depends on nothing of it but that byte and
whether there is one, and that only where the instruction is `in`; neither stream is in the snapshot. -/
def Obligations.StreamsInfluenceRunOnlyByTakenByte : Prop :=
  (∀ (s : State) (emitted : List Byte), ∃ (t : State) (more : List Byte),
    step s = .next t ∧ t.outStream = s.outStream ++ more ∧
    step { s with outStream := emitted } = .next { t with outStream := emitted ++ more }) ∧
  (∀ s t : State, step s = .next t → t.inStream = s.inStream ∨ ∃ b, s.inStream = b :: t.inStream) ∧
  (∀ (s : State) (bytes : List Byte), (CanFetch s → ∀ a, ¬NextIs s (.inp a)) → ∃ t : State,
    step s = .next t ∧ t.inStream = s.inStream ∧ step { s with inStream := bytes } = .next { t with inStream := bytes }) ∧
  (∀ (s : State) (b : Byte) (rest other : List Byte), s.inStream = b :: rest → ∃ t : State, step s = .next t ∧
    ((t.inStream = rest ∧ step { s with inStream := b :: other } = .next { t with inStream := other }) ∨
      (t.inStream = b :: rest ∧ step { s with inStream := b :: other } = .next { t with inStream := b :: other }))) ∧
  (∀ (s : State) (emitted bytes : List Byte), dump { s with outStream := emitted, inStream := bytes } = dump s)

/-! ## The debug port, the loader and the session -/

/-- R183: the length and the layout of a snapshot: pc, registers, cells and stack, each Word low byte first; nothing else is in
it, so states that agree on those four have the same snapshot. -/
def Obligations.DumpLayout : Prop :=
  (∀ s : State,
    (dump s).length = 65554 + 2 * s.stack.length ∧
    (∀ (k : Nat) (w : Word), ((k = 0 ∧ w = s.pc) ∨ (∃ r : Fin 8, k = 1 + r.val ∧ w = s.x[r]) ∨
        (∃ n, n < 32768 ∧ k = 9 + n ∧ w = Memory.read s.mem n) ∨ (∃ n, k = 32777 + n ∧ s.stack[n]? = some w)) →
      (dump s)[2 * k]? = some (BitVec.ofNat 8 (w.toNat % 256)) ∧
      (dump s)[2 * k + 1]? = some (BitVec.ofNat 8 (w.toNat / 256)))) ∧
  (∀ s t : State, t.pc = s.pc → t.x = s.x → t.mem = s.mem → t.stack = s.stack → dump t = dump s)

/-- R184's round-trip law (with decision D19): the snapshot of any state with a memory in canonical form, restored on any
engine that is not Faulted, gives its pc, registers, memory and stack, and leaves the rest of that engine as it was. -/
def Obligations.RestoreOfDumpIsIdentity : Prop :=
  ∀ s u : State, s.mem.wf = true → u.fault = none →
    restore (dump s) u = .ok { u with pc := s.pc, x := s.x, mem := s.mem, stack := s.stack }

/-- R184, R185 (conflict C7, decisions D19 and D20): a buffer shorter than 65554 bytes or of odd length loads nothing and leaves
the engine Faulted with `MalformedSnapshot`; a Faulted engine refuses every buffer. (That a halted engine takes the latch too,
and is then both, which R161 says of no fatal condition, is the model's choice: log entry 17, DESIGN CHOICE.) -/
def Obligations.RestoreRejectsMalformed : Prop :=
  ∀ (bytes : List Byte) (s : State),
    (s.fault = none → bytes.length < 65554 ∨ bytes.length % 2 = 1 →
      restore bytes s = .ok { s with fault := some .malformedSnapshot }) ∧
    (s.fault.isSome = true → restore bytes s = .error .engineFaulted)

/-- R181, R185 (ranges and refusals: D20, log entry 17): the debug port's register write and read, for every index and value. -/
def Obligations.DebugRegisterAccess : Prop :=
  ∀ (s : State) (i v : Nat),
    (∀ r : Fin 8, i = r.val → debugGet i s = .ok s.x[r] ∧
      (s.fault = none → v < 65536 → debugSet i v s = .ok { s with x := s.x.set r (BitVec.ofNat 16 v) })) ∧
    (8 ≤ i → debugGet i s = .error .badIndex ∧ (s.fault = none → debugSet i v s = .error .badIndex)) ∧
    (i < 8 → 65536 ≤ v → s.fault = none → debugSet i v s = .error .badValue) ∧
    (s.fault.isSome = true → debugSet i v s = .error .engineFaulted)

/-- R203: an image's byte pairs, little-endian, are loaded from address 0 on, whatever the Words, and every other cell is 0; a
trailing odd byte is a malformed-input condition at every length: an error, and where nothing else is wrong with the image, that
error. -/
def Obligations.ImageLoadsLittleEndian : Prop :=
  ∀ (bytes input : List Byte) (s : State),
    (bytes.length % 2 = 0 → bytes.length ≤ 65536 → ∃ t, loadImage bytes input s = .ok t ∧
      (∀ k (low high : Byte), bytes[2 * k]? = some low → bytes[2 * k + 1]? = some high →
        (Memory.read t.mem k).toNat = low.toNat + 256 * high.toNat) ∧
      ∀ k, bytes.length ≤ 2 * k → Memory.read t.mem k = 0) ∧
    (bytes.length % 2 = 1 → ∃ e, loadImage bytes input s = .error e) ∧
    (bytes.length % 2 = 1 → bytes.length ≤ 65536 → loadImage bytes input s = .error .oddLength)

/-- R187, R188: before a step the session becomes `Stopped` exactly when pc is a breakpoint or a carried raw operand Word of the
next instruction is a watchpoint; otherwise its run-state is as it was; the engine and both sets are never changed. (That
no watchpoint fires where nothing can be decoded, pc above 32764, is the model's choice, log entry 18.) -/
def Obligations.TriggersStopSession : Prop :=
  ∀ sys : DebugSystem,
    ((sys.engine.pc ∈ sys.session.breakpoints ∨
        (sys.engine.pc.toNat ≤ 32764 ∧ ∃ i w, NextIs sys.engine i ∧ w ∈ i.operands ∧ w ∈ sys.session.watchpoints)) →
      (consult sys).session.running = false) ∧
    (¬(sys.engine.pc ∈ sys.session.breakpoints ∨
        (sys.engine.pc.toNat ≤ 32764 ∧ ∃ i w, NextIs sys.engine i ∧ w ∈ i.operands ∧ w ∈ sys.session.watchpoints)) →
      (consult sys).session.running = sys.session.running) ∧
    (consult sys).engine = sys.engine ∧ (consult sys).session.breakpoints = sys.session.breakpoints ∧
    (consult sys).session.watchpoints = sys.session.watchpoints ∧ (consult sys).snapshot = sys.snapshot
end

