-- ==== Sys2Proof/Laws/Encoding.lean ====
section
/-! SUPPORT. Small laws of the encoder and of the byte packing (R42, R62). -/

namespace Sys2Proof

theorem encode_length (i : Instr) : (encode i).length = i.length := rfl

theorem instr_length_le (i : Instr) : i.length ≤ 4 := by
  cases i <;> exact Nat.le_of_ble_eq_true rfl

@[simp] theorem decode_cons (w : Word) (ws : List Word) : decode (w :: ws) = decodeFrom w ws := rfl

/-- A Word is known by its value. -/
theorem word_eq_of_toNat {w : Word} {n : Nat} (h : w.toNat = n) : w = BitVec.ofNat 16 n := by
  subst h
  simp

@[simp] theorem wordsOfBytes_nil : wordsOfBytes [] = some [] := rfl

@[simp] theorem wordsOfBytes_one (b : Byte) : wordsOfBytes [b] = none := rfl

@[simp] theorem wordsOfBytes_two (low high : Byte) (rest : List Byte) :
    wordsOfBytes (low :: high :: rest) = (wordsOfBytes rest).map (wordOfBytes low high :: ·) := rfl

theorem toNat_wordOfBytes (low high : Byte) : (wordOfBytes low high).toNat = low.toNat + 256 * high.toNat := by
  have := low.isLt
  rw [wordOfBytes, BitVec.toNat_append, Nat.shiftLeft_eq, Nat.mul_comm, ← Nat.two_pow_add_eq_or_of_lt this]
  omega

theorem toNat_lowByte (w : Word) : (w.extractLsb' 0 8).toNat = w.toNat % 256 := by
  simp

theorem toNat_highByte (w : Word) : (w.extractLsb' 8 8).toNat = w.toNat / 256 := by
  have := w.isLt
  simp [Nat.shiftRight_eq_div_pow]
  omega

/-- A Word is the Word of its own two bytes. -/
theorem wordOfBytes_wordBytes (w : Word) : wordOfBytes (w.extractLsb' 0 8) (w.extractLsb' 8 8) = w := by
  apply BitVec.eq_of_toNat_eq
  rw [toNat_wordOfBytes, toNat_lowByte, toNat_highByte]
  omega

@[simp] theorem bytesOfWords_nil : bytesOfWords [] = [] := rfl

theorem bytesOfWords_cons (w : Word) (ws : List Word) :
    bytesOfWords (w :: ws) = w.extractLsb' 0 8 :: w.extractLsb' 8 8 :: bytesOfWords ws := rfl

theorem length_bytesOfWords : ∀ ws : List Word, (bytesOfWords ws).length = 2 * ws.length
  | [] => rfl
  | w :: ws => by
    rw [bytesOfWords_cons, List.length_cons, List.length_cons, length_bytesOfWords ws, List.length_cons]
    omega

/-- Words packed as bytes are read back. -/
theorem wordsOfBytes_bytesOfWords : ∀ ws : List Word, wordsOfBytes (bytesOfWords ws) = some ws
  | [] => rfl
  | w :: ws => by
    simp [bytesOfWords_cons, wordsOfBytes_bytesOfWords ws, wordOfBytes_wordBytes]

end Sys2Proof
end

