-- ==== Sys2Proof/Laws/Memory.lean ====
section
/-! SUPPORT. The laws of memory: every operation keeps the canonical form, a read after a write, and equal reads make equal
memories. -/

namespace Sys2Proof.Machine

theorem Memory.wfFrom_cons {lo a : Nat} {v : Word} {rest : Memory} :
    Memory.wfFrom lo ((a, v) :: rest) = true ↔
      lo ≤ a ∧ a < Config.memWords ∧ v ≠ 0 ∧ Memory.wfFrom (a + 1) rest = true := by
  simp [Memory.wfFrom, and_assoc]

theorem Memory.wfFrom_weaken {lo lo' : Nat} (h : lo' ≤ lo) :
    ∀ {m : Memory}, Memory.wfFrom lo m = true → Memory.wfFrom lo' m = true
  | [], _ => rfl
  | (_, _) :: _, hm => by
    rw [Memory.wfFrom_cons] at hm ⊢
    exact ⟨h.trans hm.1, hm.2⟩

/-- A cell below the form's start is not listed. -/
theorem Memory.read_below {lo a : Nat} (h : a < lo) : ∀ {m : Memory}, Memory.wfFrom lo m = true → Memory.read m a = 0
  | [], _ => rfl
  | (b, w) :: rest, hm => by
    obtain ⟨hb, -, -, hr⟩ := Memory.wfFrom_cons.1 hm
    have hne : a ≠ b := by omega
    simpa [Memory.read, hne] using Memory.read_below (lo := b + 1) (by omega) hr

/-- A cell outside the address space is not listed. -/
theorem Memory.read_beyond {lo a : Nat} (h : Config.memWords ≤ a) :
    ∀ {m : Memory}, Memory.wfFrom lo m = true → Memory.read m a = 0
  | [], _ => rfl
  | (b, w) :: rest, hm => by
    obtain ⟨-, hb, -, hr⟩ := Memory.wfFrom_cons.1 hm
    have hne : a ≠ b := by omega
    simpa [Memory.read, hne] using Memory.read_beyond h hr

theorem Memory.wfFrom_write {lo a : Nat} {v : Word} (hlo : lo ≤ a) (ha : a < Config.memWords) :
    ∀ {m : Memory}, Memory.wfFrom lo m = true → Memory.wfFrom lo (Memory.write m a v) = true
  | [], _ => by
    unfold Memory.write
    split
    · rfl
    · exact Memory.wfFrom_cons.2 ⟨hlo, ha, ‹_›, rfl⟩
  | (b, w) :: rest, hm => by
    obtain ⟨h1, h2, h3, h4⟩ := Memory.wfFrom_cons.1 hm
    unfold Memory.write
    split
    · split
      · exact hm
      · exact Memory.wfFrom_cons.2 ⟨hlo, ha, ‹_›, Memory.wfFrom_cons.2 ⟨by omega, h2, h3, h4⟩⟩
    · split
      · split
        · exact Memory.wfFrom_weaken (by omega) h4
        · subst a
          exact Memory.wfFrom_cons.2 ⟨hlo, ha, ‹_›, h4⟩
      · exact Memory.wfFrom_cons.2 ⟨h1, h2, h3, Memory.wfFrom_write (by omega) ha h4⟩

/-- A write inside the address space keeps the canonical form. -/
theorem Memory.wf_write {m : Memory} {a : Nat} {v : Word} (ha : a < Config.memWords) (hm : m.wf = true) :
    (Memory.write m a v).wf = true :=
  Memory.wfFrom_write (Nat.zero_le a) ha hm

theorem Memory.wf_nil : Memory.wf [] = true := rfl

theorem Memory.read_write_other {a b : Nat} {v : Word} (h : b ≠ a) :
    ∀ {m : Memory}, Memory.read (Memory.write m a v) b = Memory.read m b
  | [] => by
    unfold Memory.write
    split <;> simp [Memory.read, h]
  | (c, w) :: rest => by
    unfold Memory.write
    split
    · split <;> simp [Memory.read, h]
    · split
      · subst c
        split <;> simp [Memory.read, h]
      · simp [Memory.read, Memory.read_write_other h]

theorem Memory.read_write_same_from {lo a : Nat} {v : Word} :
    ∀ {m : Memory}, Memory.wfFrom lo m = true → Memory.read (Memory.write m a v) a = v
  | [], _ => by
    unfold Memory.write
    split <;> simp_all [Memory.read]
  | (c, w) :: rest, hm => by
    obtain ⟨h1, h2, h3, h4⟩ := Memory.wfFrom_cons.1 hm
    unfold Memory.write
    split
    · split
      · subst v
        have hne : a ≠ c := by omega
        simpa [Memory.read, hne] using Memory.read_below (lo := c + 1) (by omega) h4
      · simp [Memory.read]
    · split
      · subst a
        split
        · subst v
          exact Memory.read_below (by omega) h4
        · simp [Memory.read]
      · have hne : a ≠ c := ‹_›
        simpa [Memory.read, hne] using Memory.read_write_same_from h4

/-- What a write leaves, read cell by cell. -/
theorem Memory.read_write {m : Memory} {a b : Nat} {v : Word} (hm : m.wf = true) :
    Memory.read (Memory.write m a v) b = if b = a then v else Memory.read m b := by
  by_cases h : b = a
  · subst h
    simpa using Memory.read_write_same_from hm
  · simp [h, Memory.read_write_other h]

/-- Two memories in canonical form that read alike everywhere are the same data. -/
theorem Memory.ext_from {lo : Nat} : ∀ {m n : Memory}, Memory.wfFrom lo m = true → Memory.wfFrom lo n = true →
    (∀ a, Memory.read m a = Memory.read n a) → m = n
  | [], [], _, _, _ => rfl
  | [], (b, w) :: rest, _, hn, h => by
    have := h b
    simp [Memory.read] at this
    exact absurd this.symm (Memory.wfFrom_cons.1 hn).2.2.1
  | (b, w) :: rest, [], hm, _, h => by
    have := h b
    simp [Memory.read] at this
    exact absurd this (Memory.wfFrom_cons.1 hm).2.2.1
  | (b, w) :: r, (c, u) :: q, hm, hn, h => by
    obtain ⟨-, -, hw, hr⟩ := Memory.wfFrom_cons.1 hm
    obtain ⟨-, -, hu, hq⟩ := Memory.wfFrom_cons.1 hn
    have hbc : b = c := by
      rcases Nat.lt_trichotomy b c with hlt | heq | hlt
      · have hb := h b
        have hne : b ≠ c := by omega
        rw [show Memory.read ((b, w) :: r) b = w by simp [Memory.read]] at hb
        rw [show Memory.read ((c, u) :: q) b = Memory.read q b by simp [Memory.read, hne],
          Memory.read_below (lo := c + 1) (by omega) hq] at hb
        exact absurd hb hw
      · exact heq
      · have hc := h c
        have hne : c ≠ b := by omega
        rw [show Memory.read ((c, u) :: q) c = u by simp [Memory.read]] at hc
        rw [show Memory.read ((b, w) :: r) c = Memory.read r c by simp [Memory.read, hne],
          Memory.read_below (lo := b + 1) (by omega) hr] at hc
        exact absurd hc.symm hu
    subst hbc
    have hwu : w = u := by simpa [Memory.read] using h b
    subst hwu
    have hrq : r = q := by
      refine Memory.ext_from hr hq fun a => ?_
      by_cases ha : a = b
      · subst ha
        rw [Memory.read_below (Nat.lt_succ_self a) hr, Memory.read_below (Nat.lt_succ_self a) hq]
      · simpa [Memory.read, ha] using h a
    rw [hrq]

theorem Memory.ext {m n : Memory} (hm : m.wf = true) (hn : n.wf = true)
    (h : ∀ a, Memory.read m a = Memory.read n a) : m = n :=
  Memory.ext_from hm hn h

/-! ## Blocks of Words -/

theorem Memory.wfFrom_ofWords : ∀ (base : Nat) (ws : List Word), base + ws.length ≤ Config.memWords →
    Memory.wfFrom base (Memory.ofWords base ws) = true
  | _, [], _ => rfl
  | base, w :: ws, h => by
    have h' : base + 1 + ws.length ≤ Config.memWords := by simp at h; omega
    have ih := Memory.wfFrom_ofWords (base + 1) ws h'
    unfold Memory.ofWords
    split
    · exact Memory.wfFrom_weaken (by omega) ih
    · exact Memory.wfFrom_cons.2 ⟨Nat.le_refl _, by omega, ‹_›, ih⟩

/-- Loading at most 32768 Words from address 0 gives a memory in canonical form. -/
theorem Memory.wf_ofWords {ws : List Word} (h : ws.length ≤ Config.memWords) : (Memory.ofWords 0 ws).wf = true :=
  Memory.wfFrom_ofWords 0 ws (by omega)

theorem Memory.read_ofWords_below {a : Nat} : ∀ (base : Nat) (ws : List Word), a < base →
    Memory.read (Memory.ofWords base ws) a = 0
  | _, [], _ => rfl
  | base, w :: ws, h => by
    have hne : a ≠ base := by omega
    unfold Memory.ofWords
    split
    · exact Memory.read_ofWords_below (base + 1) ws (by omega)
    · simpa [Memory.read, hne] using Memory.read_ofWords_below (base + 1) ws (by omega)

theorem Memory.read_ofWords_from : ∀ (base k : Nat) (ws : List Word),
    Memory.read (Memory.ofWords base ws) (base + k) = ws.getD k 0
  | _, _, [] => by simp [Memory.ofWords, Memory.read]
  | base, 0, w :: ws => by
    unfold Memory.ofWords
    split
    · subst w
      simpa using Memory.read_ofWords_below (base + 1) ws (by omega)
    · simp [Memory.read]
  | base, k + 1, w :: ws => by
    have ih := Memory.read_ofWords_from (base + 1) k ws
    rw [show base + 1 + k = base + (k + 1) by omega] at ih
    unfold Memory.ofWords
    split
    · simpa using ih
    · simpa [Memory.read] using ih

/-- A loaded memory holds the loaded Words, and 0 beyond them. -/
theorem Memory.read_ofWords (ws : List Word) (k : Nat) : Memory.read (Memory.ofWords 0 ws) k = ws.getD k 0 := by
  simpa using Memory.read_ofWords_from 0 k ws

@[simp] theorem Memory.length_words (m : Memory) : ∀ base n, (Memory.words m base n).length = n
  | _, 0 => rfl
  | base, n + 1 => by simp [Memory.words, Memory.length_words m (base + 1) n]

theorem Memory.getElem?_words (m : Memory) : ∀ (base n k : Nat), k < n →
    (Memory.words m base n)[k]? = some (Memory.read m (base + k))
  | _, 0, _, h => absurd h (Nat.not_lt_zero _)
  | base, n + 1, 0, _ => by simp [Memory.words]
  | base, n + 1, k + 1, h => by
    have := Memory.getElem?_words m (base + 1) n k (by omega)
    rw [show base + 1 + k = base + (k + 1) by omega] at this
    simpa [Memory.words] using this

theorem Memory.wf_writeWords : ∀ {m : Memory} {base : Nat} {ws : List Word}, base + ws.length ≤ Config.memWords →
    m.wf = true → (Memory.writeWords m base ws).wf = true
  | _, _, [], _, hm => hm
  | m, base, w :: ws, h, hm => by
    simp only [List.length_cons] at h
    exact Memory.wf_writeWords (m := Memory.write m base w) (by omega) (Memory.wf_write (by omega) hm)

/-- The cells a fetch reads, where all four exist (R81). -/
theorem fetchWindow_of_le (m : Memory) {a : Nat} (h : a ≤ 32764) :
    fetchWindow m a = [Memory.read m a, Memory.read m (a + 1), Memory.read m (a + 2), Memory.read m (a + 3)] := by
  have : min 4 (Config.memWords - a) = 4 := by simp only [Config.memWords]; omega
  simp [fetchWindow, this, Memory.words]

theorem length_fetchWindow (m : Memory) (a : Nat) : (fetchWindow m a).length = min 4 (Config.memWords - a) := by
  simp [fetchWindow]

end Sys2Proof.Machine
end

