-- ==== Sys2Proof/Laws/State.lean ====
section
/-! SUPPORT. One lemma per field per update of State, all true by rfl, and reading a register after writing one. -/

namespace Sys2Proof.Machine

variable (s : State)

/-! ## writeReg -/

@[simp] theorem State.writeReg_x (i : Fin 8) (v : Word) : (s.writeReg i v).x = s.x.set i v := rfl
@[simp] theorem State.writeReg_pc (i : Fin 8) (v : Word) : (s.writeReg i v).pc = s.pc := rfl
@[simp] theorem State.writeReg_halted (i : Fin 8) (v : Word) : (s.writeReg i v).halted = s.halted := rfl
@[simp] theorem State.writeReg_fault (i : Fin 8) (v : Word) : (s.writeReg i v).fault = s.fault := rfl
@[simp] theorem State.writeReg_stack (i : Fin 8) (v : Word) : (s.writeReg i v).stack = s.stack := rfl
@[simp] theorem State.writeReg_mem (i : Fin 8) (v : Word) : (s.writeReg i v).mem = s.mem := rfl
@[simp] theorem State.writeReg_outStream (i : Fin 8) (v : Word) : (s.writeReg i v).outStream = s.outStream := rfl
@[simp] theorem State.writeReg_inStream (i : Fin 8) (v : Word) : (s.writeReg i v).inStream = s.inStream := rfl
@[simp] theorem State.writeReg_draws (i : Fin 8) (v : Word) : (s.writeReg i v).draws = s.draws := rfl

/-! ## setPc -/

@[simp] theorem State.setPc_x (t : Word) : (s.setPc t).x = s.x := rfl
@[simp] theorem State.setPc_pc (t : Word) : (s.setPc t).pc = t := rfl
@[simp] theorem State.setPc_halted (t : Word) : (s.setPc t).halted = s.halted := rfl
@[simp] theorem State.setPc_fault (t : Word) : (s.setPc t).fault = s.fault := rfl
@[simp] theorem State.setPc_stack (t : Word) : (s.setPc t).stack = s.stack := rfl
@[simp] theorem State.setPc_mem (t : Word) : (s.setPc t).mem = s.mem := rfl
@[simp] theorem State.setPc_outStream (t : Word) : (s.setPc t).outStream = s.outStream := rfl
@[simp] theorem State.setPc_inStream (t : Word) : (s.setPc t).inStream = s.inStream := rfl
@[simp] theorem State.setPc_draws (t : Word) : (s.setPc t).draws = s.draws := rfl

/-! ## setHalted -/

@[simp] theorem State.setHalted_x : (s.setHalted).x = s.x := rfl
@[simp] theorem State.setHalted_pc : (s.setHalted).pc = s.pc := rfl
@[simp] theorem State.setHalted_halted : (s.setHalted).halted = true := rfl
@[simp] theorem State.setHalted_fault : (s.setHalted).fault = s.fault := rfl
@[simp] theorem State.setHalted_stack : (s.setHalted).stack = s.stack := rfl
@[simp] theorem State.setHalted_mem : (s.setHalted).mem = s.mem := rfl
@[simp] theorem State.setHalted_outStream : (s.setHalted).outStream = s.outStream := rfl
@[simp] theorem State.setHalted_inStream : (s.setHalted).inStream = s.inStream := rfl
@[simp] theorem State.setHalted_draws : (s.setHalted).draws = s.draws := rfl

/-! ## setFault -/

@[simp] theorem State.setFault_x (c : FatalCause) : (s.setFault c).x = s.x := rfl
@[simp] theorem State.setFault_pc (c : FatalCause) : (s.setFault c).pc = s.pc := rfl
@[simp] theorem State.setFault_halted (c : FatalCause) : (s.setFault c).halted = s.halted := rfl
@[simp] theorem State.setFault_fault (c : FatalCause) : (s.setFault c).fault = some c := rfl
@[simp] theorem State.setFault_stack (c : FatalCause) : (s.setFault c).stack = s.stack := rfl
@[simp] theorem State.setFault_mem (c : FatalCause) : (s.setFault c).mem = s.mem := rfl
@[simp] theorem State.setFault_outStream (c : FatalCause) : (s.setFault c).outStream = s.outStream := rfl
@[simp] theorem State.setFault_inStream (c : FatalCause) : (s.setFault c).inStream = s.inStream := rfl
@[simp] theorem State.setFault_draws (c : FatalCause) : (s.setFault c).draws = s.draws := rfl

/-! ## latch -/

@[simp] theorem State.latch_x (c : FatalCause) : (s.latch c).x = s.x := rfl
@[simp] theorem State.latch_pc (c : FatalCause) : (s.latch c).pc = s.pc := rfl
@[simp] theorem State.latch_halted (c : FatalCause) : (s.latch c).halted = s.halted := rfl
@[simp] theorem State.latch_fault (c : FatalCause) : (s.latch c).fault = some c := rfl
@[simp] theorem State.latch_stack (c : FatalCause) : (s.latch c).stack = s.stack := rfl
@[simp] theorem State.latch_mem (c : FatalCause) : (s.latch c).mem = s.mem := rfl
@[simp] theorem State.latch_outStream (c : FatalCause) : (s.latch c).outStream = s.outStream := rfl
@[simp] theorem State.latch_inStream (c : FatalCause) : (s.latch c).inStream = s.inStream := rfl
@[simp] theorem State.latch_draws (c : FatalCause) : (s.latch c).draws = s.draws := rfl

/-! ## setStack -/

@[simp] theorem State.setStack_x (l : List Word) : (s.setStack l).x = s.x := rfl
@[simp] theorem State.setStack_pc (l : List Word) : (s.setStack l).pc = s.pc := rfl
@[simp] theorem State.setStack_halted (l : List Word) : (s.setStack l).halted = s.halted := rfl
@[simp] theorem State.setStack_fault (l : List Word) : (s.setStack l).fault = s.fault := rfl
@[simp] theorem State.setStack_stack (l : List Word) : (s.setStack l).stack = l := rfl
@[simp] theorem State.setStack_mem (l : List Word) : (s.setStack l).mem = s.mem := rfl
@[simp] theorem State.setStack_outStream (l : List Word) : (s.setStack l).outStream = s.outStream := rfl
@[simp] theorem State.setStack_inStream (l : List Word) : (s.setStack l).inStream = s.inStream := rfl
@[simp] theorem State.setStack_draws (l : List Word) : (s.setStack l).draws = s.draws := rfl

/-! ## setMem -/

@[simp] theorem State.setMem_x (m : Memory) : (s.setMem m).x = s.x := rfl
@[simp] theorem State.setMem_pc (m : Memory) : (s.setMem m).pc = s.pc := rfl
@[simp] theorem State.setMem_halted (m : Memory) : (s.setMem m).halted = s.halted := rfl
@[simp] theorem State.setMem_fault (m : Memory) : (s.setMem m).fault = s.fault := rfl
@[simp] theorem State.setMem_stack (m : Memory) : (s.setMem m).stack = s.stack := rfl
@[simp] theorem State.setMem_mem (m : Memory) : (s.setMem m).mem = m := rfl
@[simp] theorem State.setMem_outStream (m : Memory) : (s.setMem m).outStream = s.outStream := rfl
@[simp] theorem State.setMem_inStream (m : Memory) : (s.setMem m).inStream = s.inStream := rfl
@[simp] theorem State.setMem_draws (m : Memory) : (s.setMem m).draws = s.draws := rfl

/-! ## setOut -/

@[simp] theorem State.setOut_x (l : List Byte) : (s.setOut l).x = s.x := rfl
@[simp] theorem State.setOut_pc (l : List Byte) : (s.setOut l).pc = s.pc := rfl
@[simp] theorem State.setOut_halted (l : List Byte) : (s.setOut l).halted = s.halted := rfl
@[simp] theorem State.setOut_fault (l : List Byte) : (s.setOut l).fault = s.fault := rfl
@[simp] theorem State.setOut_stack (l : List Byte) : (s.setOut l).stack = s.stack := rfl
@[simp] theorem State.setOut_mem (l : List Byte) : (s.setOut l).mem = s.mem := rfl
@[simp] theorem State.setOut_outStream (l : List Byte) : (s.setOut l).outStream = l := rfl
@[simp] theorem State.setOut_inStream (l : List Byte) : (s.setOut l).inStream = s.inStream := rfl
@[simp] theorem State.setOut_draws (l : List Byte) : (s.setOut l).draws = s.draws := rfl

/-! ## setIn -/

@[simp] theorem State.setIn_x (l : List Byte) : (s.setIn l).x = s.x := rfl
@[simp] theorem State.setIn_pc (l : List Byte) : (s.setIn l).pc = s.pc := rfl
@[simp] theorem State.setIn_halted (l : List Byte) : (s.setIn l).halted = s.halted := rfl
@[simp] theorem State.setIn_fault (l : List Byte) : (s.setIn l).fault = s.fault := rfl
@[simp] theorem State.setIn_stack (l : List Byte) : (s.setIn l).stack = s.stack := rfl
@[simp] theorem State.setIn_mem (l : List Byte) : (s.setIn l).mem = s.mem := rfl
@[simp] theorem State.setIn_outStream (l : List Byte) : (s.setIn l).outStream = s.outStream := rfl
@[simp] theorem State.setIn_inStream (l : List Byte) : (s.setIn l).inStream = l := rfl
@[simp] theorem State.setIn_draws (l : List Byte) : (s.setIn l).draws = s.draws := rfl

/-! ## countDraw -/

@[simp] theorem State.countDraw_x : (s.countDraw).x = s.x := rfl
@[simp] theorem State.countDraw_pc : (s.countDraw).pc = s.pc := rfl
@[simp] theorem State.countDraw_halted : (s.countDraw).halted = s.halted := rfl
@[simp] theorem State.countDraw_fault : (s.countDraw).fault = s.fault := rfl
@[simp] theorem State.countDraw_stack : (s.countDraw).stack = s.stack := rfl
@[simp] theorem State.countDraw_mem : (s.countDraw).mem = s.mem := rfl
@[simp] theorem State.countDraw_outStream : (s.countDraw).outStream = s.outStream := rfl
@[simp] theorem State.countDraw_inStream : (s.countDraw).inStream = s.inStream := rfl
@[simp] theorem State.countDraw_draws : (s.countDraw).draws = s.draws + 1 := rfl

/-! ## advance -/

@[simp] theorem State.advance_x (n : Nat) : (s.advance n).x = s.x := rfl
@[simp] theorem State.advance_pc (n : Nat) : (s.advance n).pc = s.pc + BitVec.ofNat 16 n := rfl
@[simp] theorem State.advance_halted (n : Nat) : (s.advance n).halted = s.halted := rfl
@[simp] theorem State.advance_fault (n : Nat) : (s.advance n).fault = s.fault := rfl
@[simp] theorem State.advance_stack (n : Nat) : (s.advance n).stack = s.stack := rfl
@[simp] theorem State.advance_mem (n : Nat) : (s.advance n).mem = s.mem := rfl
@[simp] theorem State.advance_outStream (n : Nat) : (s.advance n).outStream = s.outStream := rfl
@[simp] theorem State.advance_inStream (n : Nat) : (s.advance n).inStream = s.inStream := rfl
@[simp] theorem State.advance_draws (n : Nat) : (s.advance n).draws = s.draws := rfl

/-! ## pushWord -/

@[simp] theorem State.pushWord_x (v : Word) : (s.pushWord v).x = s.x := rfl
@[simp] theorem State.pushWord_pc (v : Word) : (s.pushWord v).pc = s.pc := rfl
@[simp] theorem State.pushWord_halted (v : Word) : (s.pushWord v).halted = s.halted := rfl
@[simp] theorem State.pushWord_fault (v : Word) : (s.pushWord v).fault = s.fault := rfl
@[simp] theorem State.pushWord_stack (v : Word) : (s.pushWord v).stack = s.stack ++ [v] := rfl
@[simp] theorem State.pushWord_mem (v : Word) : (s.pushWord v).mem = s.mem := rfl
@[simp] theorem State.pushWord_outStream (v : Word) : (s.pushWord v).outStream = s.outStream := rfl
@[simp] theorem State.pushWord_inStream (v : Word) : (s.pushWord v).inStream = s.inStream := rfl
@[simp] theorem State.pushWord_draws (v : Word) : (s.pushWord v).draws = s.draws := rfl

/-! ## storeWord -/

@[simp] theorem State.storeWord_x (a v : Word) : (s.storeWord a v).x = s.x := rfl
@[simp] theorem State.storeWord_pc (a v : Word) : (s.storeWord a v).pc = s.pc := rfl
@[simp] theorem State.storeWord_halted (a v : Word) : (s.storeWord a v).halted = s.halted := rfl
@[simp] theorem State.storeWord_fault (a v : Word) : (s.storeWord a v).fault = s.fault := rfl
@[simp] theorem State.storeWord_stack (a v : Word) : (s.storeWord a v).stack = s.stack := rfl
@[simp] theorem State.storeWord_mem (a v : Word) : (s.storeWord a v).mem = Memory.write s.mem a.toNat v := rfl
@[simp] theorem State.storeWord_outStream (a v : Word) : (s.storeWord a v).outStream = s.outStream := rfl
@[simp] theorem State.storeWord_inStream (a v : Word) : (s.storeWord a v).inStream = s.inStream := rfl
@[simp] theorem State.storeWord_draws (a v : Word) : (s.storeWord a v).draws = s.draws := rfl

/-! ## emit -/

@[simp] theorem State.emit_x (b : Byte) : (s.emit b).x = s.x := rfl
@[simp] theorem State.emit_pc (b : Byte) : (s.emit b).pc = s.pc := rfl
@[simp] theorem State.emit_halted (b : Byte) : (s.emit b).halted = s.halted := rfl
@[simp] theorem State.emit_fault (b : Byte) : (s.emit b).fault = s.fault := rfl
@[simp] theorem State.emit_stack (b : Byte) : (s.emit b).stack = s.stack := rfl
@[simp] theorem State.emit_mem (b : Byte) : (s.emit b).mem = s.mem := rfl
@[simp] theorem State.emit_outStream (b : Byte) : (s.emit b).outStream = s.outStream ++ [b] := rfl
@[simp] theorem State.emit_inStream (b : Byte) : (s.emit b).inStream = s.inStream := rfl
@[simp] theorem State.emit_draws (b : Byte) : (s.emit b).draws = s.draws := rfl

/-! ## Registers -/

theorem State.readReg_eq (i : Fin 8) : s.readReg i = s.x[i] := rfl

@[simp] theorem State.readReg_writeReg_same (i : Fin 8) (v : Word) : (s.writeReg i v).readReg i = v := by
  simp [State.readReg, State.writeReg]

theorem State.readReg_writeReg_other (i j : Fin 8) (v : Word) (h : i ≠ j) :
    (s.writeReg i v).readReg j = s.readReg j := by
  have : (i : Nat) ≠ j := fun e => h (Fin.ext e)
  simp [State.readReg, State.writeReg, this]

end Sys2Proof.Machine
end

