-- ==== Sys2Proof/Laws/Operands.lean ====
section
/-! SUPPORT. What the operand multiplexer does, said once: by the value of the operand Word, and as case lemmas for the
meanings that use it. -/

namespace Sys2Proof.Machine

theorem classify_literal {w : Word} (h : w.toNat ≤ 32767) : classify w = .literal w := by
  rw [classify, if_pos (show w.toNat ≤ Config.litMax from h)]

theorem classify_register {w : Word} {r : Fin 8} (h : w.toNat = 32768 + r.val) : classify w = .register r := by
  have h1 : ¬ w.toNat ≤ Config.litMax := by simp only [Config.litMax]; omega
  have h2 : w.toNat - Config.regBase = r.val := by simp only [Config.regBase]; omega
  rw [classify, if_neg h1, dif_pos (h2 ▸ r.isLt)]
  exact congrArg OperandClass.register (Fin.ext h2)

theorem classify_invalid {w : Word} (h : 32776 ≤ w.toNat) : classify w = .invalid := by
  have h1 : ¬ w.toNat ≤ Config.litMax := by simp only [Config.litMax]; omega
  have h2 : ¬ w.toNat - Config.regBase < 8 := by simp only [Config.regBase]; omega
  rw [classify, if_neg h1, dif_neg h2]

/-- Every operand Word is a literal, a register reference or Invalid, by its value alone (R61). -/
theorem operand_cases (w : Word) : w.toNat ≤ 32767 ∨ (∃ r : Fin 8, w.toNat = 32768 + r.val) ∨ 32776 ≤ w.toNat := by
  by_cases h1 : w.toNat ≤ 32767
  · exact .inl h1
  · by_cases h2 : w.toNat < 32776
    · exact .inr (.inl ⟨⟨w.toNat - 32768, by omega⟩, by simp; omega⟩)
    · exact .inr (.inr (by omega))

theorem val_of_sourceValue {s : State} {w v : Word} (h : SourceValue s w v) : val w s = .ok v := by
  rcases h with ⟨h, rfl⟩ | ⟨r, h, rfl⟩
  · simp [val, classify_literal h]
  · simp [val, classify_register h, State.readReg]

theorem val_of_badSource {s : State} {w : Word} (h : BadSource w) : val w s = .error (.invalidRegister w) := by
  simp [val, classify_invalid h]

theorem dst_of_destIndex {w : Word} {d : Fin 8} (h : DestIndex w d) : dst w = .ok d := by
  simp [dst, classify_register h]

theorem dst_of_badDest {w : Word} (h : BadDest w) : dst w = .error (.invalidRegister w) := by
  rcases h with h | h
  · simp [dst, classify_literal (Nat.le_of_lt_succ h)]
  · simp [dst, classify_invalid h]

/-- A source operand has a value, or is bad. -/
theorem source_cases (s : State) (w : Word) : (∃ v, SourceValue s w v) ∨ BadSource w := by
  rcases operand_cases w with h | ⟨r, h⟩ | h
  · exact .inl ⟨w, .inl ⟨h, rfl⟩⟩
  · exact .inl ⟨_, .inr ⟨r, h, rfl⟩⟩
  · exact .inr h

theorem sourceValue_of_not_bad (s : State) {w : Word} (h : ¬BadSource w) : ∃ v, SourceValue s w v :=
  (source_cases s w).resolve_right h

/-- A destination operand names a register, or is bad. -/
theorem dest_cases (w : Word) : (∃ d, DestIndex w d) ∨ BadDest w := by
  rcases operand_cases w with h | h | h
  · exact .inr (.inl (by omega))
  · exact .inl h
  · exact .inr (.inr h)

theorem destIndex_of_not_bad {w : Word} (h : ¬BadDest w) : ∃ d, DestIndex w d :=
  (dest_cases w).resolve_right h

theorem not_badSource {s : State} {w v : Word} (h : SourceValue s w v) : ¬BadSource w := by
  rcases h with ⟨h, -⟩ | ⟨r, h, -⟩
  all_goals simp only [BadSource]; omega

theorem not_badDest {w : Word} {d : Fin 8} (h : DestIndex w d) : ¬BadDest w := by
  simp only [BadDest, DestIndex] at *
  omega

/-- A source operand has one value. -/
theorem sourceValue_unique {s : State} {w u v : Word} (hu : SourceValue s w u) (hv : SourceValue s w v) : u = v := by
  have := (val_of_sourceValue hu).symm.trans (val_of_sourceValue hv)
  simpa using this

theorem destIndex_unique {w : Word} {d e : Fin 8} (hd : DestIndex w d) (he : DestIndex w e) : d = e := by
  simp only [DestIndex] at *
  exact Fin.ext (by omega)

/-- The value of a source operand does not depend on pc. -/
@[simp] theorem val_advance (w : Word) (s : State) (n : Nat) : val w (s.advance n) = val w s := by
  unfold val State.readReg
  simp

@[simp] theorem withVal_ok {w v : Word} {s : State} {k : Word → Result} (h : val w s = .ok v) : withVal w s k = k v := by
  simp [withVal, h]

@[simp] theorem withVal_error {w : Word} {c : FatalCause} {s : State} {k : Word → Result} (h : val w s = .error c) :
    withVal w s k = raise c s := by
  simp [withVal, h]

@[simp] theorem withDst_ok {w : Word} {d : Fin 8} {s : State} {k : Fin 8 → Result} (h : dst w = .ok d) :
    withDst w s k = k d := by
  simp [withDst, h]

@[simp] theorem withDst_error {w : Word} {c : FatalCause} {s : State} {k : Fin 8 → Result} (h : dst w = .error c) :
    withDst w s k = raise c s := by
  simp [withDst, h]

/-- Resolving a source, in a state that differs from `s` by the advance only: it has a value and the meaning goes on, or it
is bad and the step ends Faulted. -/
theorem withVal_cases (w : Word) (s : State) (n : Nat) (k : Word → Result) :
    (∃ v, SourceValue s w v ∧ withVal w (s.advance n) k = k v) ∨
    (BadSource w ∧ withVal w (s.advance n) k = .next ((s.advance n).latch (.invalidRegister w))) := by
  rcases source_cases s w with ⟨v, h⟩ | h
  · exact .inl ⟨v, h, withVal_ok (by rw [val_advance]; exact val_of_sourceValue h)⟩
  · exact .inr ⟨h, withVal_error (by rw [val_advance]; exact val_of_badSource h)⟩

/-- Decoding a destination: it names a register and the meaning goes on, or it is bad and the step ends Faulted. -/
theorem withDst_cases (w : Word) (s : State) (k : Fin 8 → Result) :
    (∃ d, DestIndex w d ∧ withDst w s k = k d) ∨
    (BadDest w ∧ withDst w s k = .next (s.latch (.invalidRegister w))) := by
  rcases dest_cases w with ⟨d, h⟩ | h
  · exact .inl ⟨d, h, withDst_ok (dst_of_destIndex h)⟩
  · exact .inr ⟨h, withDst_error (dst_of_badDest h)⟩

end Sys2Proof.Machine
end

