-- ==== Sys2Proof/Laws/Ops.lean ====
section
/-! SUPPORT. What the shared operations can do, said once: popping, the three-operand form, and the head of a step. -/

namespace Sys2Proof.Machine

theorem popWord_nil {s : State} (h : s.stack = []) : s.popWord = none := by
  simp [State.popWord, h]

theorem popWord_append {s : State} {below : List Word} {v : Word} (h : s.stack = below ++ [v]) :
    s.popWord = some (v, s.setStack below) := by
  simp [State.popWord, h]

/-- Popping: the stack is empty, or its top is taken off. -/
theorem popWord_cases (s : State) : (s.stack = [] ∧ s.popWord = none) ∨
    ∃ below v, s.stack = below ++ [v] ∧ s.popWord = some (v, s.setStack below) := by
  rcases List.eq_nil_or_concat s.stack with h | ⟨below, v, h⟩
  · exact .inl ⟨h, popWord_nil h⟩
  · rw [List.concat_eq_append] at h
    exact .inr ⟨below, v, h, popWord_append h⟩

theorem raise_eq (c : FatalCause) (s : State) : raise c s = .next (s.latch c) := rfl

/-- All a three-operand instruction can do: an operand is bad, its own check fails, or it writes its result. -/
theorem alu3_cases (check : Word → Word → Option FatalCause) (f : Word → Word → Word) (a b c : Word) (s : State) :
    (∃ d vb vc, DestIndex a d ∧ SourceValue s b vb ∧ SourceValue s c vc ∧
      ((check vb vc = none ∧ alu3 check f a b c s = .next ((s.advance 4).writeReg d (f vb vc))) ∨
       ∃ cause, check vb vc = some cause ∧ alu3 check f a b c s = .next ((s.advance 4).latch cause))) ∨
    ((BadDest a ∧ alu3 check f a b c s = .next ((s.advance 4).latch (.invalidRegister a))) ∨
     (¬BadDest a ∧ BadSource b ∧ alu3 check f a b c s = .next ((s.advance 4).latch (.invalidRegister b))) ∨
     (¬BadDest a ∧ ¬BadSource b ∧ BadSource c ∧
      alu3 check f a b c s = .next ((s.advance 4).latch (.invalidRegister c)))) := by
  unfold alu3
  rcases dest_cases a with ⟨d, hd⟩ | h
  · rw [withDst_ok (dst_of_destIndex hd)]
    rcases source_cases s b with ⟨vb, hb⟩ | h
    · rw [withVal_ok ((val_advance b s 4).trans (val_of_sourceValue hb))]
      rcases source_cases s c with ⟨vc, hc⟩ | h
      · rw [withVal_ok ((val_advance c s 4).trans (val_of_sourceValue hc))]
        refine .inl ⟨d, vb, vc, hd, hb, hc, ?_⟩
        cases hk : check vb vc with
        | none => exact .inl ⟨rfl, rfl⟩
        | some cause => exact .inr ⟨cause, rfl, rfl⟩
      · exact .inr (.inr (.inr ⟨not_badDest hd, not_badSource hb, h, withVal_error (val_of_badSource h)⟩))
    · exact .inr (.inr (.inl ⟨not_badDest hd, h, withVal_error (val_of_badSource h)⟩))
  · exact .inr (.inl ⟨h, withDst_error (dst_of_badDest h)⟩)

/-! ## The head of a step -/

theorem frozen_iff (s : State) : s.frozen = true ↔ s.fault.isSome = true ∨ s.halted = true := by
  simp [State.frozen]

theorem issue_frozen {s : State} (h : s.frozen = true) : issue s = .error s := by
  simp [issue, h]

theorem frozen_of_canFetch {s : State} (h : CanFetch s) : s.frozen = false := by
  simp [State.frozen, h.1, h.2.1]

theorem fetchDecode_of_le {strict : Bool} {m : Memory} {pc : Word} (h : pc.toNat ≤ 32764) :
    fetchDecode strict m pc =
      match decode [Memory.read m pc.toNat, Memory.read m (pc.toNat + 1), Memory.read m (pc.toNat + 2),
        Memory.read m (pc.toNat + 3)] with
      | .ok (i, _) => .ok i
      | .error (.invalidOpcode w) => .error (.invalidOpcode w)
      | .error _ => .error (.memoryOutOfRange .fetch pc) := by
  simp only [fetchDecode, fetchWindow_of_le m h]
  cases strict <;> rfl

theorem fetchDecode_above {m : Memory} {pc : Word} (h : 32764 < pc.toNat) :
    fetchDecode true m pc = .error (.memoryOutOfRange .fetch pc) := by
  have : min 4 (Config.memWords - pc.toNat) < 4 := by simp only [Config.memWords]; omega
  simp [fetchDecode, length_fetchWindow, this]

theorem issue_of_nextIs {s : State} {i : Instr} (h : CanFetch s) (hn : NextIs s i) : issue s = .ok i := by
  obtain ⟨rest, hr⟩ := hn
  simp [issue, frozen_of_canFetch h, fetchDecode_of_le h.2.2, hr]

/-- An instruction is fetched only where the engine can fetch, and it is the one at pc. -/
theorem nextIs_of_fetchDecode {s : State} {i : Instr} (hf : s.frozen = false)
    (h : fetchDecode Config.strictLookahead s.mem s.pc = .ok i) : CanFetch s ∧ NextIs s i := by
  have hpc : s.pc.toNat ≤ 32764 := by
    by_contra hc
    rw [show Config.strictLookahead = true from rfl, fetchDecode_above (by omega)] at h
    cases h
  have hc : CanFetch s := by
    simp only [State.frozen, Bool.or_eq_false_iff, Option.isSome_eq_false_iff, Option.isNone_iff_eq_none] at hf
    exact ⟨hf.2, hf.1, hpc⟩
  refine ⟨hc, ?_⟩
  rw [fetchDecode_of_le hpc] at h
  split at h
  · rename_i j rest hd
    injection h with h
    exact ⟨rest, h ▸ hd⟩
  · cases h
  · cases h

end Sys2Proof.Machine
end

