-- ==== Sys2Proof/Laws/Meanings.lean ====
section
/-! SUPPORT. All that each meaning can do, said once, so that a later proof splits into these cases and unfolds nothing. The
three-operand instructions have theirs in `alu3_cases`. -/

namespace Sys2Proof.Machine

/-- A bad operand ends the step: which one, and the state it leaves. -/
abbrev EndsInBadOperand (i : Instr) (n : Nat) (s : State) (r : Result) : Prop :=
  ∃ role w, (role, w) ∈ i.operandRoles ∧ BadOperand (role, w) ∧ r = .next ((s.advance n).latch (.invalidRegister w))

theorem execJmp_cases (a : Word) (s : State) :
    (∃ v, SourceValue s a v ∧ execJmp a s = .next ((s.advance 2).setPc v)) ∨
    EndsInBadOperand (.jmp a) 2 s (execJmp a s) := by
  rcases withVal_cases a s 2 (fun va => .next ((s.advance 2).setPc va)) with h | ⟨h, e⟩
  · exact .inl h
  · exact .inr ⟨.source, a, by simp [Instr.operandRoles], h, e⟩

/-- A conditional jump: both operands have values and it goes on at one of two places, or the first bad one ends the step. -/
theorem jumpWhen_cases (taken : Word → Bool) (a b : Word) (s : State) :
    (∃ u v, SourceValue s a u ∧ SourceValue s b v ∧
      jumpWhen taken a b s = .next (if taken u then (s.advance 3).setPc v else s.advance 3)) ∨
    (BadSource a ∧ jumpWhen taken a b s = .next ((s.advance 3).latch (.invalidRegister a))) ∨
    (¬BadSource a ∧ BadSource b ∧ jumpWhen taken a b s = .next ((s.advance 3).latch (.invalidRegister b))) := by
  unfold jumpWhen
  rcases withVal_cases a s 3 (fun va => withVal b (s.advance 3) fun vb =>
    .next (if taken va then (s.advance 3).setPc vb else s.advance 3)) with ⟨u, hu, e⟩ | ⟨h, e⟩
  · rw [e]
    rcases withVal_cases b s 3 (fun vb => .next (if taken u then (s.advance 3).setPc vb else s.advance 3))
      with ⟨v, hv, e⟩ | ⟨h, e⟩
    · exact .inl ⟨u, v, hu, hv, e⟩
    · exact .inr (.inr ⟨not_badSource hu, h, e⟩)
  · exact .inr (.inl ⟨h, e⟩)

theorem execCall_cases (a : Word) (s : State) :
    (∃ v, SourceValue s a v ∧ execCall a s = .next (((s.advance 2).pushWord (s.advance 2).pc).setPc v)) ∨
    EndsInBadOperand (.call a) 2 s (execCall a s) := by
  rcases withVal_cases a s 2 (fun va => .next (((s.advance 2).pushWord (s.advance 2).pc).setPc va)) with h | ⟨h, e⟩
  · exact .inl h
  · exact .inr ⟨.source, a, by simp [Instr.operandRoles], h, e⟩

theorem execRet_cases (s : State) :
    (s.stack = [] ∧ execRet s = .next (s.advance 1).setHalted) ∨
    (∃ below v, s.stack = below ++ [v] ∧ execRet s = .next (((s.advance 1).setStack below).setPc v)) := by
  rcases popWord_cases (s.advance 1) with ⟨h, e⟩ | ⟨below, v, h, e⟩
  · exact .inl ⟨h, by simp [execRet, e]⟩
  · exact .inr ⟨below, v, h, by simp [execRet, e]⟩

/-- The two-operand form of set, not and rmem: a destination, a source, then the rest of the meaning. -/
theorem destSource_cases (a b : Word) (s : State) (k : Fin 8 → Word → Result) :
    (∃ d v, DestIndex a d ∧ SourceValue s b v ∧
      (withDst a (s.advance 3) fun d => withVal b (s.advance 3) fun v => k d v) = k d v) ∨
    (BadDest a ∧ (withDst a (s.advance 3) fun d => withVal b (s.advance 3) fun v => k d v) =
      .next ((s.advance 3).latch (.invalidRegister a))) ∨
    (¬BadDest a ∧ BadSource b ∧ (withDst a (s.advance 3) fun d => withVal b (s.advance 3) fun v => k d v) =
      .next ((s.advance 3).latch (.invalidRegister b))) := by
  rcases withDst_cases a (s.advance 3) (fun d => withVal b (s.advance 3) fun v => k d v) with ⟨d, hd, e⟩ | ⟨h, e⟩
  · rw [e]
    rcases withVal_cases b s 3 (fun v => k d v) with ⟨v, hv, e⟩ | ⟨h, e⟩
    · exact .inl ⟨d, v, hd, hv, e⟩
    · exact .inr (.inr ⟨not_badDest hd, h, e⟩)
  · exact .inr (.inl ⟨h, e⟩)

theorem execPush_cases (a : Word) (s : State) :
    (∃ v, SourceValue s a v ∧ execPush a s = .next ((s.advance 2).pushWord v)) ∨
    EndsInBadOperand (.push a) 2 s (execPush a s) := by
  rcases withVal_cases a s 2 (fun va => .next ((s.advance 2).pushWord va)) with h | ⟨h, e⟩
  · exact .inl h
  · exact .inr ⟨.source, a, by simp [Instr.operandRoles], h, e⟩

theorem execPop_cases (a : Word) (s : State) :
    (∃ d below v, DestIndex a d ∧ s.stack = below ++ [v] ∧
      execPop a s = .next (((s.advance 2).setStack below).writeReg d v)) ∨
    (∃ d, DestIndex a d ∧ s.stack = [] ∧ execPop a s = .next ((s.advance 2).latch .stackUnderflow)) ∨
    EndsInBadOperand (.pop a) 2 s (execPop a s) := by
  rcases dest_cases a with ⟨d, hd⟩ | h
  · rcases popWord_cases (s.advance 2) with ⟨h, e⟩ | ⟨below, v, h, e⟩
    · exact .inr (.inl ⟨d, hd, h, by simp [execPop, withDst_ok (dst_of_destIndex hd), e, raise_eq]⟩)
    · exact .inl ⟨d, below, v, hd, h, by simp [execPop, withDst_ok (dst_of_destIndex hd), e]⟩
  · exact .inr (.inr ⟨.destination, a, by simp [Instr.operandRoles], h, withDst_error (dst_of_badDest h)⟩)

theorem inRange_iff {a : Word} : inRange a = true ↔ a.toNat ≤ 32767 := by
  rw [inRange, decide_eq_true_iff, Config.memWords]
  exact Nat.lt_succ_iff

theorem execRmem_cases (a b : Word) (s : State) :
    (∃ d v, DestIndex a d ∧ SourceValue s b v ∧
      ((v.toNat ≤ 32767 ∧ execRmem a b s = .next ((s.advance 3).writeReg d (s.loadWord v))) ∨
       (32767 < v.toNat ∧ execRmem a b s = .next ((s.advance 3).latch (.memoryOutOfRange .read v))))) ∨
    (BadDest a ∧ execRmem a b s = .next ((s.advance 3).latch (.invalidRegister a))) ∨
    (¬BadDest a ∧ BadSource b ∧ execRmem a b s = .next ((s.advance 3).latch (.invalidRegister b))) := by
  rcases destSource_cases a b s (fun d vb => if inRange vb then .next ((s.advance 3).writeReg d (s.loadWord vb))
    else raise (.memoryOutOfRange .read vb) (s.advance 3)) with ⟨d, v, hd, hv, e⟩ | h | h
  · refine .inl ⟨d, v, hd, hv, ?_⟩
    by_cases hr : v.toNat ≤ 32767
    · exact .inl ⟨hr, e.trans (if_pos (inRange_iff.2 hr))⟩
    · exact .inr ⟨by omega, e.trans (if_neg (mt inRange_iff.1 hr))⟩
  · exact .inr (.inl h)
  · exact .inr (.inr h)

theorem execWmem_cases (a b : Word) (s : State) :
    (∃ u v, SourceValue s a u ∧ SourceValue s b v ∧
      ((u.toNat ≤ 32767 ∧ execWmem a b s = .next ((s.advance 3).storeWord u v)) ∨
       (32767 < u.toNat ∧ execWmem a b s = .next ((s.advance 3).latch (.memoryOutOfRange .write u))))) ∨
    (BadSource a ∧ execWmem a b s = .next ((s.advance 3).latch (.invalidRegister a))) ∨
    (¬BadSource a ∧ BadSource b ∧ execWmem a b s = .next ((s.advance 3).latch (.invalidRegister b))) := by
  rcases withVal_cases a s 3 (fun va => withVal b (s.advance 3) fun vb =>
    if inRange va then .next ((s.advance 3).storeWord va vb)
    else raise (.memoryOutOfRange .write va) (s.advance 3)) with ⟨u, hu, e⟩ | ⟨h, e⟩
  · rcases withVal_cases b s 3 (fun vb => if inRange u then .next ((s.advance 3).storeWord u vb)
      else raise (.memoryOutOfRange .write u) (s.advance 3)) with ⟨v, hv, e'⟩ | ⟨h, e'⟩
    · refine .inl ⟨u, v, hu, hv, ?_⟩
      by_cases hr : u.toNat ≤ 32767
      · exact .inl ⟨hr, (e.trans e').trans (if_pos (inRange_iff.2 hr))⟩
      · exact .inr ⟨by omega, (e.trans e').trans (if_neg (mt inRange_iff.1 hr))⟩
    · exact .inr (.inr ⟨not_badSource hu, h, e.trans e'⟩)
  · exact .inr (.inl ⟨h, e⟩)

theorem execOut_cases (a : Word) (s : State) :
    (∃ v, SourceValue s a v ∧
      ((v.toNat ≤ 255 ∧ execOut a s = .next ((s.advance 2).emit (v.setWidth 8))) ∨
       (255 < v.toNat ∧ execOut a s = .next ((s.advance 2).latch (.cannotPrint v))))) ∨
    EndsInBadOperand (.out a) 2 s (execOut a s) := by
  rcases withVal_cases a s 2 (fun va => if va.toNat ≤ Config.outMax then .next ((s.advance 2).emit (va.setWidth 8))
    else raise (.cannotPrint va) (s.advance 2)) with ⟨v, hv, e⟩ | ⟨h, e⟩
  · refine .inl ⟨v, hv, ?_⟩
    by_cases hr : v.toNat ≤ Config.outMax
    · exact .inl ⟨hr, e.trans (if_pos hr)⟩
    · exact .inr ⟨Nat.lt_of_not_le hr, e.trans (if_neg hr)⟩
  · exact .inr ⟨.source, a, by simp [Instr.operandRoles], h, e⟩

theorem execInp_cases (a : Word) (s : State) :
    (∃ d b rest, DestIndex a d ∧ s.inStream = b :: rest ∧
      execInp a s = .next (((s.advance 2).writeReg d (b.setWidth 16)).setIn rest)) ∨
    (∃ d, DestIndex a d ∧ s.inStream = [] ∧ execInp a s = .next s) ∨
    EndsInBadOperand (.inp a) 2 s (execInp a s) := by
  rcases dest_cases a with ⟨d, hd⟩ | h
  · cases hi : s.inStream with
    | nil => exact .inr (.inl ⟨d, hd, rfl, by simp [execInp, withDst_ok (dst_of_destIndex hd), hi]⟩)
    | cons b rest => exact .inl ⟨d, b, rest, hd, rfl, by simp [execInp, withDst_ok (dst_of_destIndex hd), hi]⟩
  · exact .inr (.inr ⟨.destination, a, by simp [Instr.operandRoles], h, withDst_error (dst_of_badDest h)⟩)

end Sys2Proof.Machine
end

