-- ==== Sys2Proof/Laws/Exec.lean ====
section
/-! SUPPORT. The inversion of `exec`: a next state is that of the instruction's own effect, or of a fatal condition the
instruction can raise. Frames, invariants and rules about all instructions follow from it by a case split. -/

namespace Sys2Proof.Machine

/-- The state of an instruction's own effect. -/
def Effect : Instr → State → State → Prop
  | .halt, s, t => t = (s.advance 1).setHalted
  | .set a b, s, t => ∃ d v, DestIndex a d ∧ SourceValue s b v ∧ t = (s.advance 3).writeReg d v
  | .push a, s, t => ∃ v, SourceValue s a v ∧ t = (s.advance 2).pushWord v
  | .pop a, s, t => ∃ d below v, DestIndex a d ∧ s.stack = below ++ [v] ∧
      t = ((s.advance 2).setStack below).writeReg d v
  | .eq a b c, s, t => ∃ d u v, DestIndex a d ∧ SourceValue s b u ∧ SourceValue s c v ∧
      t = (s.advance 4).writeReg d (boolWord (wordEq u v))
  | .gt a b c, s, t => ∃ d u v, DestIndex a d ∧ SourceValue s b u ∧ SourceValue s c v ∧
      t = (s.advance 4).writeReg d (boolWord (wordGt u v))
  | .jmp a, s, t => ∃ v, SourceValue s a v ∧ t = (s.advance 2).setPc v
  | .jt a b, s, t => ∃ u v, SourceValue s a u ∧ SourceValue s b v ∧
      t = if wordTrue u then (s.advance 3).setPc v else s.advance 3
  | .jf a b, s, t => ∃ u v, SourceValue s a u ∧ SourceValue s b v ∧
      t = if !wordTrue u then (s.advance 3).setPc v else s.advance 3
  | .add a b c, s, t => ∃ d u v, DestIndex a d ∧ SourceValue s b u ∧ SourceValue s c v ∧
      t = (s.advance 4).writeReg d (aluAdd u v)
  | .mult a b c, s, t => ∃ d u v, DestIndex a d ∧ SourceValue s b u ∧ SourceValue s c v ∧
      t = (s.advance 4).writeReg d (aluMult u v)
  | .mod a b c, s, t => ∃ d u v, DestIndex a d ∧ SourceValue s b u ∧ SourceValue s c v ∧ v ≠ 0 ∧
      t = (s.advance 4).writeReg d (aluMod Config.modMask15 u v)
  | .and a b c, s, t => ∃ d u v, DestIndex a d ∧ SourceValue s b u ∧ SourceValue s c v ∧
      t = (s.advance 4).writeReg d (aluAnd u v)
  | .or a b c, s, t => ∃ d u v, DestIndex a d ∧ SourceValue s b u ∧ SourceValue s c v ∧
      t = (s.advance 4).writeReg d (aluOr u v)
  | .not a b, s, t => ∃ d v, DestIndex a d ∧ SourceValue s b v ∧ t = (s.advance 3).writeReg d (aluNot v)
  | .rmem a b, s, t => ∃ d v, DestIndex a d ∧ SourceValue s b v ∧ v.toNat ≤ 32767 ∧
      t = (s.advance 3).writeReg d (s.loadWord v)
  | .wmem a b, s, t => ∃ u v, SourceValue s a u ∧ SourceValue s b v ∧ u.toNat ≤ 32767 ∧
      t = (s.advance 3).storeWord u v
  | .call a, s, t => ∃ v, SourceValue s a v ∧ t = ((s.advance 2).pushWord (s.advance 2).pc).setPc v
  | .ret, s, t => (s.stack = [] ∧ t = (s.advance 1).setHalted) ∨
      ∃ below v, s.stack = below ++ [v] ∧ t = ((s.advance 1).setStack below).setPc v
  | .out a, s, t => ∃ v, SourceValue s a v ∧ v.toNat ≤ 255 ∧ t = (s.advance 2).emit (v.setWidth 8)
  | .inp a, s, t => (∃ d, DestIndex a d ∧ s.inStream = [] ∧ t = s) ∨
      ∃ d b rest, DestIndex a d ∧ s.inStream = b :: rest ∧ t = ((s.advance 2).writeReg d (b.setWidth 16)).setIn rest
  | .noop, s, t => t = s.advance 1

/-- The fatal conditions an instruction can raise, each with its condition (R160). -/
def Raises (i : Instr) (s : State) (c : FatalCause) : Prop :=
  (∃ role w, c = .invalidRegister w ∧ (role, w) ∈ i.operandRoles ∧ BadOperand (role, w)) ∨
  (∃ a, c = .stackUnderflow ∧ i = .pop a ∧ s.stack = []) ∨
  (∃ a b d, c = .divideByZero ∧ i = .mod a b d ∧ SourceValue s d 0) ∨
  (∃ a b v, c = .memoryOutOfRange .read v ∧ i = .rmem a b ∧ SourceValue s b v ∧ 32767 < v.toNat) ∨
  (∃ a b v, c = .memoryOutOfRange .write v ∧ i = .wmem a b ∧ SourceValue s a v ∧ 32767 < v.toNat) ∨
  (∃ a v, c = .cannotPrint v ∧ i = .out a ∧ SourceValue s a v ∧ 255 < v.toNat)

/-- All that an instruction of word-length `n` can do. -/
abbrev Does (i : Instr) (s : State) (r : Result) : Prop :=
  (∃ t, r = .next t ∧ Effect i s t) ∨ ∃ c, r = .next ((s.advance i.length).latch c) ∧ Raises i s c

theorem raises_badOperand {i : Instr} {s : State} {role : Role} {w : Word} (h : (role, w) ∈ i.operandRoles)
    (hb : BadOperand (role, w)) : Raises i s (.invalidRegister w) :=
  .inl ⟨role, w, rfl, h, hb⟩

theorem does_of_badOperand {i : Instr} {n : Nat} {s : State} {r : Result} (hn : n = i.length)
    (h : EndsInBadOperand i n s r) : Does i s r := by
  obtain ⟨role, w, hm, hb, e⟩ := h
  subst hn
  exact .inr ⟨_, e, raises_badOperand hm hb⟩

/-- The three-operand instructions with no check of their own. -/
theorem does_of_alu3 {i : Instr} {f : Word → Word → Word} {a b c : Word} {s : State} (hl : i.length = 4)
    (hr : i.operandRoles = [(.destination, a), (.source, b), (.source, c)])
    (he : ∀ t, (∃ d u v, DestIndex a d ∧ SourceValue s b u ∧ SourceValue s c v ∧ t = (s.advance 4).writeReg d (f u v)) →
      Effect i s t) : Does i s (alu3 noCheck f a b c s) := by
  rcases alu3_cases noCheck f a b c s with ⟨d, u, v, hd, hu, hv, ⟨-, e⟩ | ⟨_, hk, -⟩⟩ | ⟨h, e⟩ | ⟨-, h, e⟩ | ⟨-, -, h, e⟩
  · exact .inl ⟨_, e, he _ ⟨d, u, v, hd, hu, hv, rfl⟩⟩
  · simp [noCheck] at hk
  · exact does_of_badOperand hl.symm ⟨.destination, a, by simp [hr], h, e⟩
  · exact does_of_badOperand hl.symm ⟨.source, b, by simp [hr], h, e⟩
  · exact does_of_badOperand hl.symm ⟨.source, c, by simp [hr], h, e⟩

theorem exec_does (i : Instr) (s : State) : Does i s (exec i s) := by
  cases i with
  | halt => exact .inl ⟨_, rfl, rfl⟩
  | noop => exact .inl ⟨_, rfl, rfl⟩
  | eq a b c => exact does_of_alu3 rfl rfl fun _ h => h
  | gt a b c => exact does_of_alu3 rfl rfl fun _ h => h
  | add a b c => exact does_of_alu3 rfl rfl fun _ h => h
  | mult a b c => exact does_of_alu3 rfl rfl fun _ h => h
  | and a b c => exact does_of_alu3 rfl rfl fun _ h => h
  | or a b c => exact does_of_alu3 rfl rfl fun _ h => h
  | mod a b c =>
    rcases alu3_cases divisorCheck (aluMod Config.modMask15) a b c s with
      ⟨d, u, v, hd, hu, hv, ⟨hk, e⟩ | ⟨_, hk, e⟩⟩ | ⟨h, e⟩ | ⟨-, h, e⟩ | ⟨-, -, h, e⟩
    · refine .inl ⟨_, e, d, u, v, hd, hu, hv, ?_, rfl⟩
      rintro rfl
      simp [divisorCheck] at hk
    · by_cases hz : v = 0
      · subst hz
        simp only [divisorCheck, if_true, Option.some.injEq] at hk
        exact .inr ⟨_, e, .inr (.inr (.inl ⟨a, b, c, hk.symm, rfl, hv⟩))⟩
      · simp [divisorCheck] at hk
        exact absurd hk.1 hz
    · exact does_of_badOperand rfl ⟨.destination, a, by simp [Instr.operandRoles], h, e⟩
    · exact does_of_badOperand rfl ⟨.source, b, by simp [Instr.operandRoles], h, e⟩
    · exact does_of_badOperand rfl ⟨.source, c, by simp [Instr.operandRoles], h, e⟩
  | set a b =>
    rcases destSource_cases a b s (fun d v => .next ((s.advance 3).writeReg d v)) with ⟨d, v, hd, hv, e⟩ | ⟨h, e⟩ | ⟨-, h, e⟩
    · exact .inl ⟨_, e, d, v, hd, hv, rfl⟩
    · exact does_of_badOperand rfl ⟨.destination, a, by simp [Instr.operandRoles], h, e⟩
    · exact does_of_badOperand rfl ⟨.source, b, by simp [Instr.operandRoles], h, e⟩
  | not a b =>
    rcases destSource_cases a b s (fun d v => .next ((s.advance 3).writeReg d (aluNot v))) with
      ⟨d, v, hd, hv, e⟩ | ⟨h, e⟩ | ⟨-, h, e⟩
    · exact .inl ⟨_, e, d, v, hd, hv, rfl⟩
    · exact does_of_badOperand rfl ⟨.destination, a, by simp [Instr.operandRoles], h, e⟩
    · exact does_of_badOperand rfl ⟨.source, b, by simp [Instr.operandRoles], h, e⟩
  | rmem a b =>
    rcases execRmem_cases a b s with ⟨d, v, hd, hv, ⟨hr, e⟩ | ⟨hr, e⟩⟩ | ⟨h, e⟩ | ⟨-, h, e⟩
    · exact .inl ⟨_, e, d, v, hd, hv, hr, rfl⟩
    · exact .inr ⟨_, e, .inr (.inr (.inr (.inl ⟨a, b, v, rfl, rfl, hv, hr⟩)))⟩
    · exact does_of_badOperand rfl ⟨.destination, a, by simp [Instr.operandRoles], h, e⟩
    · exact does_of_badOperand rfl ⟨.source, b, by simp [Instr.operandRoles], h, e⟩
  | wmem a b =>
    rcases execWmem_cases a b s with ⟨u, v, hu, hv, ⟨hr, e⟩ | ⟨hr, e⟩⟩ | ⟨h, e⟩ | ⟨-, h, e⟩
    · exact .inl ⟨_, e, u, v, hu, hv, hr, rfl⟩
    · exact .inr ⟨_, e, .inr (.inr (.inr (.inr (.inl ⟨a, b, u, rfl, rfl, hu, hr⟩))))⟩
    · exact does_of_badOperand rfl ⟨.source, a, by simp [Instr.operandRoles], h, e⟩
    · exact does_of_badOperand rfl ⟨.source, b, by simp [Instr.operandRoles], h, e⟩
  | jmp a =>
    rcases execJmp_cases a s with ⟨v, hv, e⟩ | h
    · exact .inl ⟨_, e, v, hv, rfl⟩
    · exact does_of_badOperand rfl h
  | jt a b =>
    rcases jumpWhen_cases wordTrue a b s with ⟨u, v, hu, hv, e⟩ | ⟨h, e⟩ | ⟨-, h, e⟩
    · exact .inl ⟨_, e, u, v, hu, hv, rfl⟩
    · exact does_of_badOperand rfl ⟨.source, a, by simp [Instr.operandRoles], h, e⟩
    · exact does_of_badOperand rfl ⟨.source, b, by simp [Instr.operandRoles], h, e⟩
  | jf a b =>
    rcases jumpWhen_cases (fun v => !wordTrue v) a b s with ⟨u, v, hu, hv, e⟩ | ⟨h, e⟩ | ⟨-, h, e⟩
    · exact .inl ⟨_, e, u, v, hu, hv, rfl⟩
    · exact does_of_badOperand rfl ⟨.source, a, by simp [Instr.operandRoles], h, e⟩
    · exact does_of_badOperand rfl ⟨.source, b, by simp [Instr.operandRoles], h, e⟩
  | call a =>
    rcases execCall_cases a s with ⟨v, hv, e⟩ | h
    · exact .inl ⟨_, e, v, hv, rfl⟩
    · exact does_of_badOperand rfl h
  | ret =>
    rcases execRet_cases s with ⟨h, e⟩ | ⟨below, v, h, e⟩
    · exact .inl ⟨_, e, .inl ⟨h, rfl⟩⟩
    · exact .inl ⟨_, e, .inr ⟨below, v, h, rfl⟩⟩
  | push a =>
    rcases execPush_cases a s with ⟨v, hv, e⟩ | h
    · exact .inl ⟨_, e, v, hv, rfl⟩
    · exact does_of_badOperand rfl h
  | pop a =>
    rcases execPop_cases a s with ⟨d, below, v, hd, hs, e⟩ | ⟨d, -, hs, e⟩ | h
    · exact .inl ⟨_, e, d, below, v, hd, hs, rfl⟩
    · exact .inr ⟨_, e, .inr (.inl ⟨a, rfl, rfl, hs⟩)⟩
    · exact does_of_badOperand rfl h
  | out a =>
    rcases execOut_cases a s with ⟨v, hv, ⟨hr, e⟩ | ⟨hr, e⟩⟩ | h
    · exact .inl ⟨_, e, v, hv, hr, rfl⟩
    · exact .inr ⟨_, e, .inr (.inr (.inr (.inr (.inr ⟨a, v, rfl, rfl, hv, hr⟩))))⟩
    · exact does_of_badOperand rfl h
  | inp a =>
    rcases execInp_cases a s with ⟨d, b, rest, hd, hi, e⟩ | ⟨d, hd, hi, e⟩ | h
    · exact .inl ⟨_, e, .inr ⟨d, b, rest, hd, hi, rfl⟩⟩
    · exact .inl ⟨_, e, .inl ⟨d, hd, hi, rfl⟩⟩
    · exact does_of_badOperand rfl h

/-- THE INVERSION OF `exec`. -/
theorem exec_cases {i : Instr} {s t : State} (h : exec i s = .next t) :
    Effect i s t ∨ ∃ c, t = (s.advance i.length).latch c ∧ Raises i s c := by
  rcases exec_does i s with ⟨u, e, hu⟩ | ⟨c, e, hc⟩
  · rw [h] at e
    injection e with e
    exact .inl (e ▸ hu)
  · rw [h] at e
    injection e with e
    exact .inr ⟨c, e, hc⟩

/-- THE INVERSION OF `step`: the engine is frozen, or a fatal condition is met at the fetch, or the decoded instruction runs. -/
theorem step_cases {s t : State} (h : step s = .next t) :
    (s.frozen = true ∧ t = s) ∨
    (s.frozen = false ∧ ∃ c, fetchDecode Config.strictLookahead s.mem s.pc = .error c ∧ t = s.latchAtFetch c) ∨
    (s.frozen = false ∧ ∃ i, fetchDecode Config.strictLookahead s.mem s.pc = .ok i ∧ exec i s = .next t) := by
  unfold step issue at h
  cases hf : s.frozen with
  | true =>
    simp only [hf, if_true] at h
    injection h with h
    exact .inl ⟨rfl, h.symm⟩
  | false =>
    simp only [hf] at h
    cases hd : fetchDecode Config.strictLookahead s.mem s.pc with
    | error c =>
      simp [hd] at h
      exact .inr (.inl ⟨rfl, c, rfl, h.symm⟩)
    | ok i =>
      simp [hd] at h
      exact .inr (.inr ⟨rfl, i, rfl, h⟩)

end Sys2Proof.Machine
end

