-- ==== Sys2Proof/Laws/Host.lean ====
section
/-! SUPPORT. The host's own writes to memory keep its canonical form: reset with an image, restoring a snapshot, a debug write,
and the placing of an instruction. -/

namespace Sys2Proof.Machine

theorem wf_hostReset {image : List Word} {input : List Byte} {s : State} (h : image.length ≤ Config.memWords) :
    (hostReset image input s).mem.wf = true :=
  Memory.wf_ofWords h

theorem wf_loadImage {bytes input : List Byte} {s t : State} (h : loadImage bytes input s = .ok t) : t.mem.wf = true := by
  unfold loadImage imageWords at h
  cases hw : wordsOfBytes bytes with
  | none => simp [hw] at h
  | some ws =>
    by_cases hl : ws.length ≤ Config.memWords
    · simp only [hw, hl, if_true, Except.ok.injEq] at h
      exact h ▸ wf_hostReset hl
    · simp [hw, hl] at h

theorem wf_withSnapshot (s : State) (ws : List Word) : (s.withSnapshot ws).mem.wf = true :=
  Memory.wf_ofWords (List.length_take_le _ _)

/-- Whatever the buffer, a restore that is not refused leaves a memory in canonical form. -/
theorem wf_restore {bytes : List Byte} {s t : State} (hs : s.mem.wf = true) (h : restore bytes s = .ok t) :
    t.mem.wf = true := by
  unfold restore at h
  split at h
  · cases h
  · split at h
    · cases h
      exact hs
    · split at h
      · cases h
        exact hs
      · cases h
        exact wf_withSnapshot _ _

theorem mem_debugSet {i v : Nat} {s t : State} (h : debugSet i v s = .ok t) : t.mem = s.mem := by
  unfold debugSet at h
  split at h
  · cases h
  · split at h
    · split at h
      · cases h
        rfl
      · cases h
    · cases h

theorem readied_pc_le (s : State) : s.readied.pc.toNat + 4 ≤ Config.memWords := by
  unfold State.readied
  split
  · assumption
  · exact Nat.le_of_ble_eq_true rfl

theorem wf_withFetchWord {s : State} (h : s.mem.wf = true) (nbits w : Nat) : (s.withFetchWord nbits w).mem.wf = true :=
  Memory.wf_writeWords (readied_pc_le s) h

end Sys2Proof.Machine
end

