-- ==== Sys2Proof/Laws/PerInstr.lean ====
section
/-! SUPPORT. Statements made for every instruction, one lemma per constructor. -/

namespace Sys2Proof.Laws.EncodedForm

/-- The first Word of an encoded instruction is its opcode, at most 21, and its length is arity plus one, at most four Words
(R60, R65). -/
def Statement (i : Instr) : Prop :=
  (encode i).head? = some i.opcode ∧ i.opcode.toNat ≤ 21 ∧ (encode i).length = i.arity + 1 ∧ i.arity ≤ 3

theorem halt : Statement .halt := ⟨rfl, Nat.le_of_ble_eq_true rfl, rfl, Nat.le_of_ble_eq_true rfl⟩
theorem set (a b : Word) : Statement (.set a b) := ⟨rfl, Nat.le_of_ble_eq_true rfl, rfl, Nat.le_of_ble_eq_true rfl⟩
theorem push (a : Word) : Statement (.push a) := ⟨rfl, Nat.le_of_ble_eq_true rfl, rfl, Nat.le_of_ble_eq_true rfl⟩
theorem pop (a : Word) : Statement (.pop a) := ⟨rfl, Nat.le_of_ble_eq_true rfl, rfl, Nat.le_of_ble_eq_true rfl⟩
theorem eq (a b c : Word) : Statement (.eq a b c) := ⟨rfl, Nat.le_of_ble_eq_true rfl, rfl, Nat.le_of_ble_eq_true rfl⟩
theorem gt (a b c : Word) : Statement (.gt a b c) := ⟨rfl, Nat.le_of_ble_eq_true rfl, rfl, Nat.le_of_ble_eq_true rfl⟩
theorem jmp (a : Word) : Statement (.jmp a) := ⟨rfl, Nat.le_of_ble_eq_true rfl, rfl, Nat.le_of_ble_eq_true rfl⟩
theorem jt (a b : Word) : Statement (.jt a b) := ⟨rfl, Nat.le_of_ble_eq_true rfl, rfl, Nat.le_of_ble_eq_true rfl⟩
theorem jf (a b : Word) : Statement (.jf a b) := ⟨rfl, Nat.le_of_ble_eq_true rfl, rfl, Nat.le_of_ble_eq_true rfl⟩
theorem add (a b c : Word) : Statement (.add a b c) := ⟨rfl, Nat.le_of_ble_eq_true rfl, rfl, Nat.le_of_ble_eq_true rfl⟩
theorem mult (a b c : Word) : Statement (.mult a b c) := ⟨rfl, Nat.le_of_ble_eq_true rfl, rfl, Nat.le_of_ble_eq_true rfl⟩
theorem mod (a b c : Word) : Statement (.mod a b c) := ⟨rfl, Nat.le_of_ble_eq_true rfl, rfl, Nat.le_of_ble_eq_true rfl⟩
theorem and (a b c : Word) : Statement (.and a b c) := ⟨rfl, Nat.le_of_ble_eq_true rfl, rfl, Nat.le_of_ble_eq_true rfl⟩
theorem or (a b c : Word) : Statement (.or a b c) := ⟨rfl, Nat.le_of_ble_eq_true rfl, rfl, Nat.le_of_ble_eq_true rfl⟩
theorem not (a b : Word) : Statement (.not a b) := ⟨rfl, Nat.le_of_ble_eq_true rfl, rfl, Nat.le_of_ble_eq_true rfl⟩
theorem rmem (a b : Word) : Statement (.rmem a b) := ⟨rfl, Nat.le_of_ble_eq_true rfl, rfl, Nat.le_of_ble_eq_true rfl⟩
theorem wmem (a b : Word) : Statement (.wmem a b) := ⟨rfl, Nat.le_of_ble_eq_true rfl, rfl, Nat.le_of_ble_eq_true rfl⟩
theorem call (a : Word) : Statement (.call a) := ⟨rfl, Nat.le_of_ble_eq_true rfl, rfl, Nat.le_of_ble_eq_true rfl⟩
theorem ret : Statement .ret := ⟨rfl, Nat.le_of_ble_eq_true rfl, rfl, Nat.le_of_ble_eq_true rfl⟩
theorem out (a : Word) : Statement (.out a) := ⟨rfl, Nat.le_of_ble_eq_true rfl, rfl, Nat.le_of_ble_eq_true rfl⟩
theorem inp (a : Word) : Statement (.inp a) := ⟨rfl, Nat.le_of_ble_eq_true rfl, rfl, Nat.le_of_ble_eq_true rfl⟩
theorem noop : Statement .noop := ⟨rfl, Nat.le_of_ble_eq_true rfl, rfl, Nat.le_of_ble_eq_true rfl⟩

end Sys2Proof.Laws.EncodedForm
end

