-- ==== Sys2Proof/Tests/Slice0.lean ====
section
/-! SUPPORT. The model's own tests. Words are written out from 30_encoding.md (R61, R65); expected results are those of
95_test_vectors.md (the vector's id stands in the comment), which were computed from the rules, not from a run. At the end,
for every statement with hypotheses, a concrete state and operands that meet them. -/

namespace Sys2Proof.Tests

open Sys2Proof Sys2Proof.Machine

/-! ## Decoding: one word of every opcode -/

/-- The instruction that four Words decode to. -/
def read4 (ws : List Word) : Option Instr :=
  match decode ws with
  | .ok (i, _) => some i
  | .error _ => none

theorem test_decode_halt : read4 [0b0000000000000000, 1, 2, 3] = some .halt := by decide
theorem test_decode_set : read4 [0b0000000000000001, 0b1000000000000011, 0b0000010011010010, 3] = some (.set 32771 1234) := by decide
theorem test_decode_push : read4 [0b0000000000000010, 0b1000000000000001, 2, 3] = some (.push 32769) := by decide
theorem test_decode_pop : read4 [0b0000000000000011, 0b1000000000000010, 2, 3] = some (.pop 32770) := by decide
theorem test_decode_eq : read4 [0b0000000000000100, 0b1000000000000000, 5, 6] = some (.eq 32768 5 6) := by decide
theorem test_decode_gt : read4 [0b0000000000000101, 0b1000000000000000, 6, 5] = some (.gt 32768 6 5) := by decide
theorem test_decode_jmp : read4 [0b0000000000000110, 0b0000000001100100, 2, 3] = some (.jmp 100) := by decide
theorem test_decode_jt : read4 [0b0000000000000111, 1, 0b0000000001100100, 3] = some (.jt 1 100) := by decide
theorem test_decode_jf : read4 [0b0000000000001000, 0, 0b0000000001100100, 3] = some (.jf 0 100) := by decide
theorem test_decode_add : read4 [0b0000000000001001, 0b1000000000000000, 0b1000000000000001, 0b0000000000111100] =
    some (.add 32768 32769 60) := by decide
theorem test_decode_mult : read4 [0b0000000000001010, 0b1000000000000000, 200, 400] = some (.mult 32768 200 400) := by decide
theorem test_decode_mod : read4 [0b0000000000001011, 0b1000000000000000, 17, 5] = some (.mod 32768 17 5) := by decide
theorem test_decode_and : read4 [0b0000000000001100, 0b1000000000000000, 0x7F0F, 0x00FF] = some (.and 32768 32527 255) := by decide
theorem test_decode_or : read4 [0b0000000000001101, 0b1000000000000000, 0x7F00, 0x00FF] = some (.or 32768 32512 255) := by decide
theorem test_decode_not : read4 [0b0000000000001110, 0b1000000000000000, 0x2AAA, 3] = some (.not 32768 10922) := by decide
theorem test_decode_rmem : read4 [0b0000000000001111, 0b1000000000000000, 4, 3] = some (.rmem 32768 4) := by decide
theorem test_decode_wmem : read4 [0b0000000000010000, 3, 99, 3] = some (.wmem 3 99) := by decide
theorem test_decode_call : read4 [0b0000000000010001, 0b0000000011001000, 2, 3] = some (.call 200) := by decide
theorem test_decode_ret : read4 [0b0000000000010010, 1, 2, 3] = some .ret := by decide
theorem test_decode_out : read4 [0b0000000000010011, 0b0000000001000001, 2, 3] = some (.out 65) := by decide
theorem test_decode_in : read4 [0b0000000000010100, 0b1000000000000000, 2, 3] = some (.inp 32768) := by decide
theorem test_decode_noop : read4 [0b0000000000010101, 40000, 40000, 40000] = some .noop := by decide
/-- V-seq-10, V-seq-13: 22 and 256 + 9 are Invalid. -/
theorem test_decode_invalid : (read4 [22, 0, 0, 0], read4 [0b0000000100001001, 32768, 1, 2]) = (none, none) := by decide
/-- `add reg0, reg1, 60` numbered as the table numbers it: first word lowest; bits from nbits on are 0. -/
theorem test_table_word : (decodeTableWord 64 0x003C800180000009, decodeTableWord 16 0x003C800180000009) =
    (some (.add 32768 32769 60), some (.add 0 0 0)) := by decide
/-- R203: the image bytes of Scenario A. -/
theorem test_image_words : wordsOfBytes [0x09, 0x00, 0x00, 0x80, 0x01, 0x80, 0x3C, 0x00] = some [9, 32768, 32769, 60] := by decide

/-! ## WellFormed refuses an ill-formed term -/

theorem test_wf_accepts : (Instr.add 32775 32767 32775).wellFormed = true := by decide
theorem test_wf_refuses_literal_destination : (Instr.add 32767 1 2).wellFormed = false := by decide
theorem test_wf_refuses_invalid_destination : (Instr.pop 32776).wellFormed = false := by decide
theorem test_wf_refuses_invalid_source : (Instr.jt 0 32776).wellFormed = false := by decide

/-! ## One step of each instruction -/

/-- The reset state with Words loaded at address 0. -/
def boot (ws : List Word) : State := { State.reset with mem := Memory.ofWords 0 ws }

/-- The same with the first three registers set. -/
def bootWith (ws : List Word) (x0 x1 x2 : Word) : State := { boot ws with x := #v[x0, x1, x2, 0, 0, 0, 0, 0] }

/-- What a projection reads after one step. -/
def seen {α : Type} (f : State → α) (s : State) : Option α :=
  match step s with
  | .next t => some (f t)
  | .fault _ => none
  | .refused _ => none

def x0 (t : State) : Word := t.x[(0 : Fin 8)]

/-- V-seq-1. -/
theorem test_halt : seen (fun t => (t.pc, t.halted, t.fault)) (boot [0]) = some (1, true, none) := by decide
/-- V-seq-4. -/
theorem test_fetch_above : seen (fun t => (t.pc, t.halted, t.fault)) { boot [] with pc := 32765 } =
    some (32765, false, some (.memoryOutOfRange .fetch 32765)) := by decide
/-- V-seq-8: the last address an instruction runs from. -/
theorem test_fetch_last : seen (fun t => (t.pc, x0 t))
    { boot [] with pc := 32764, mem := [(32764, 9), (32765, 32768), (32766, 1), (32767, 2)] } = some (32768, 3) := by decide
/-- V-seq-12: an opcode Word is not resolved. -/
theorem test_invalid_opcode : seen (fun t => (t.fault, t.halted)) (bootWith [32768] 21 0 0) =
    some (some (.invalidOpcode 32768), false) := by decide
/-- V-ctl-1. -/
theorem test_noop : seen (fun t => (t.pc, t.halted)) (boot [21, 40000, 40000, 40000]) = some (1, false) := by decide
/-- V-ctl-3. -/
theorem test_jmp_register : seen (fun t => (t.pc, t.fault)) (bootWith [6, 32768] 40000 0 0) = some (40000, none) := by decide
/-- V-ctl-9. -/
theorem test_jt_any_nonzero : seen State.pc (bootWith [7, 32769, 32770] 0 32768 77) = some 77 := by decide
/-- V-ctl-10. -/
theorem test_jt_checks_target : seen (fun t => (t.pc, t.fault)) (boot [7, 0, 32776]) =
    some (3, some (.invalidRegister 32776)) := by decide
/-- V-ctl-11. -/
theorem test_jf_taken : seen State.pc (boot [8, 0, 100]) = some 100 := by decide
/-- V-ctl-12. -/
theorem test_jf_not_taken : seen State.pc (boot [8, 1, 100]) = some 3 := by decide
/-- V-ctl-15. -/
theorem test_call : seen (fun t => (t.pc, t.stack)) { bootWith [17, 32768] 4321 0 0 with stack := [1] } =
    some (4321, [1, 2]) := by decide
/-- V-ctl-17. -/
theorem test_ret : seen (fun t => (t.pc, t.stack, t.halted)) { boot [18] with stack := [5, 300] } =
    some (300, [5], false) := by decide
/-- V-ctl-18. -/
theorem test_ret_empty : seen (fun t => (t.pc, t.halted, t.fault)) (boot [18]) = some (1, true, none) := by decide
/-- V-seq-17: resolution is one level deep. -/
theorem test_set_one_level : seen (fun t => (t.pc, x0 t)) (bootWith [1, 32768, 32769] 0 32769 0) = some (3, 32769) := by decide
/-- V-mov-4. -/
theorem test_set_literal_destination : seen (fun t => (t.pc, t.fault)) (boot [1, 5, 6]) =
    some (3, some (.invalidRegister 5)) := by decide
/-- V-mov-8. -/
theorem test_push : seen (fun t => (t.pc, t.stack)) { boot [2, 32767] with stack := [4] } = some (2, [4, 32767]) := by decide
/-- V-mov-11, with register 0. -/
theorem test_pop : seen (fun t => (t.pc, x0 t, t.stack)) { boot [3, 32768] with stack := [1, 2, 3] } =
    some (2, 3, [1, 2]) := by decide
/-- V-mov-12. -/
theorem test_pop_empty : seen (fun t => (t.pc, t.fault, t.halted)) (boot [3, 32768]) =
    some (2, some .stackUnderflow, false) := by decide
/-- V-eq-3. -/
theorem test_eq_old_value : seen x0 (boot [4, 32768, 32768, 0]) = some 1 := by decide
/-- V-eq-2. -/
theorem test_eq_unequal : seen x0 (bootWith [4, 32768, 5, 6] 9 0 0) = some 0 := by decide
/-- V-gt-4. -/
theorem test_gt_unsigned : seen x0 (bootWith [5, 32768, 32769, 32767] 0 32768 0) = some 1 := by decide
/-- V-gt-2. -/
theorem test_gt_equal : seen x0 (bootWith [5, 32768, 5, 5] 9 0 0) = some 0 := by decide
/-- V-add-4. -/
theorem test_add_wide_inputs : seen x0 (bootWith [9, 32768, 32769, 32770] 0 65535 65535) = some 32766 := by decide
/-- V-add-2. -/
theorem test_add_wraps : seen (fun t => (t.pc, x0 t)) (bootWith [9, 32768, 32767, 1] 9 0 0) = some (4, 0) := by decide
/-- V-mult-1. -/
theorem test_mult_wraps : seen x0 (boot [10, 32768, 200, 400]) = some 14464 := by decide
/-- V-mult-3. -/
theorem test_mult_wide_inputs : seen x0 (bootWith [10, 32768, 32769, 32769] 0 65535 0) = some 1 := by decide
/-- V-mod-5 (conflict C1). -/
theorem test_mod_reduced : seen x0 (bootWith [11, 32768, 32769, 32770] 0 40000 50000) = some 7232 := by decide
/-- V-mod-3. -/
theorem test_mod_by_zero : seen (fun t => (t.pc, x0 t, t.fault)) (bootWith [11, 32768, 7, 0] 9 0 0) =
    some (4, 9, some .divideByZero) := by decide
/-- V-and-2. -/
theorem test_and_unmasked : seen x0 (bootWith [12, 32768, 32769, 32770] 0 65535 32769) = some 32769 := by decide
/-- V-and-1. -/
theorem test_and : seen x0 (boot [12, 32768, 0x7F0F, 0x00FF]) = some 15 := by decide
/-- V-or-2. -/
theorem test_or_unmasked : seen x0 (bootWith [13, 32768, 32769, 5] 0 32768 0) = some 32773 := by decide
/-- V-or-1. -/
theorem test_or : seen x0 (boot [13, 32768, 0x7F00, 0x00FF]) = some 32767 := by decide
/-- V-not-3. -/
theorem test_not : seen (fun t => (t.pc, x0 t)) (boot [14, 32768, 0x2AAA]) = some (3, 21845) := by decide
/-- V-not-5. -/
theorem test_not_ignores_bit15 : seen x0 (bootWith [14, 32768, 32769] 0 32768 0) = some 32767 := by decide
/-- V-mem-1. -/
theorem test_rmem : seen (fun t => (t.pc, x0 t)) (boot [15, 32768, 4, 0, 4242]) = some (3, 4242) := by decide
/-- V-mem-3. -/
theorem test_rmem_out_of_range : seen (fun t => (x0 t, t.fault)) (bootWith [15, 32768, 32769] 9 32768 0) =
    some (9, some (.memoryOutOfRange .read 32768)) := by decide
/-- V-mem-8. -/
theorem test_wmem_last_cell : seen (fun t => (t.pc, Memory.read t.mem 32767)) (bootWith [16, 32768, 32769] 32767 65535 0) =
    some (3, 65535) := by decide
/-- V-mem-9. -/
theorem test_wmem_out_of_range : seen (fun t => (t.mem, t.fault)) (bootWith [16, 32768, 1] 32768 0 0) =
    some ([(0, 16), (1, 32768), (2, 1)], some (.memoryOutOfRange .write 32768)) := by decide
/-- V-io-2. -/
theorem test_out_255 : seen (fun t => (t.pc, t.outStream)) (boot [19, 255]) = some (2, [255]) := by decide
/-- V-io-3. -/
theorem test_out_256 : seen (fun t => (t.outStream, t.fault)) (boot [19, 256]) = some ([], some (.cannotPrint 256)) := by decide
/-- V-io-8. -/
theorem test_in : seen (fun t => (t.pc, x0 t, t.inStream)) { bootWith [20, 32768] 500 0 0 with inStream := [255, 1] } =
    some (2, 255, [1]) := by decide
/-- V-io-9 and V-io-11: with no byte `in` waits, and a bad destination faults all the same. -/
theorem test_in_waits : (seen (fun t => (t.pc, x0 t, t.fault)) (bootWith [20, 32768] 9 0 0),
    seen (fun t => (t.pc, t.fault)) (boot [20, 0])) = (some (0, 9, none), some (2, some (.invalidRegister 0))) := by decide

/-! ## The host's side -/

/-- The table's word is what the next step runs, from reset. -/
theorem test_with_fetch_word : seen (fun t => (t.pc, x0 t)) (State.reset.withFetchWord 64 0x003C800180000009) = some (4, 60) := by
  decide
/-- It is run where the engine had stopped, too. -/
theorem test_with_fetch_word_unfrozen :
    seen State.pc ({ State.reset with halted := true, fault := some .divideByZero, pc := 32765 }.withFetchWord 16 21) =
      some 1 := by decide
/-- V-snap-2: the head of the snapshot of Scenario A's end state. -/
theorem test_dump_head : (dump { bootWith [9, 32768, 32769, 60, 19, 32768] 60 0 0 with pc := 7 }).take 22 =
    [0x07, 0, 0x3C, 0, 0, 0, 0, 0, 0, 0, 0, 0, 0, 0, 0, 0, 0, 0, 0x09, 0, 0x00, 0x80] := by decide
/-- V-snap-6. -/
theorem test_restore_short : (restore [1, 2] (bootWith [] 9 0 0)).toOption.map (fun t => (x0 t, t.pc, t.fault)) =
    some (9, 0, some .malformedSnapshot) := by decide
/-- V-dbg-2, V-dbg-9, V-dbg-10. -/
theorem test_debug_set : ((debugSet 9 1 (boot [])).toOption.map x0, (debugSet 0 65536 (boot [])).toOption.map x0,
    (debugSet 0 1 { boot [] with fault := some .stackUnderflow }).toOption.map x0,
    (debugSet 0 1 { boot [] with halted := true }).toOption.map x0) = (none, none, none, some 1) := by decide
/-- V-dbg-7, V-dbg-8. -/
theorem test_debug_decode : ((debugDecode 0 (boot [9, 32768, 32769, 60])).toOption, (debugDecode 32765 (boot [])).toOption) =
    (some (.valid (.add 32768 32769 60)), none) := by decide

/-- A running session over Scenario A's image, with one breakpoint and one watchpoint. -/
def watched (pc bp wp : Word) : DebugSystem :=
  ⟨{ boot [9, 32768, 32769, 60, 19, 32768] with pc := pc }, ⟨true, [bp], [wp]⟩, none⟩

/-- V-dbg-3 to V-dbg-6: a breakpoint at pc fires, a raw operand Word fires, an opcode Word and the lookahead do not. -/
theorem test_triggers : ((consult (watched 4 4 1)).session.running, (consult (watched 0 4 32768)).session.running,
    (consult (watched 4 0 19)).session.running, (consult (watched 6 0 0)).session.running) = (false, false, true, true) := by decide
/-- R189: `Stopped`, the empty command gives one step; with nothing queued the session waits. -/
theorem test_single_step : ((driverTurn [.stop, .inspect, .continue] (watched 0 9 9)).system.engine.pc,
    (driverTurn [.stop, .inspect, .continue] (watched 0 9 9)).queue, (driverTurn [.stop] (watched 0 9 9)).turn) =
    (4, [.continue], .wait) := by decide

/-! ## Witnesses: states and operands that meet the statements' hypotheses, at the boundaries of their clauses -/

/-- A state with Words above 32767 in registers, a stack and input bytes. -/
def busy : State :=
  { State.reset with x := #v[9, 32768, 65535, 0, 7, 1, 300, 40000], stack := [5, 300], inStream := [97, 1] }

theorem canFetch_boot : CanFetch (boot [0]) := by decide

theorem witness_EncodeInvertsDecode : decode [9, 32768, 32769, 60, 19] = .ok (.add 32768 32769 60, [19]) := rfl
theorem witness_DecodeCarriesArityWords : ((21 : Word).toNat ≤ 21 ∧ 21 < (22 : Word).toNat) ∧
    CanFetch (boot [22]) ∧ Memory.read (boot [22]).mem (boot [22]).pc.toNat = 22 := by decide
theorem witness_StepRunsDecodedInstruction : CanFetch (boot [17, 200]) ∧ NextIs (boot [17, 200]) (.call 200) :=
  ⟨by decide, _, rfl⟩
theorem witness_StepRunsDecodedInstruction_last_address :
    CanFetch { boot [] with pc := 32764 } ∧ NextIs { boot [] with pc := 32764 } .halt := ⟨by decide, _, rfl⟩
theorem witness_FrozenEngineStepsToItself : ({ boot [0] with fault := some .divideByZero } : State).fault.isSome = true ∧
    ({ boot [0] with halted := true } : State).halted = true := by decide
theorem witness_FetchAboveLimitFaults : (boot [0]).halted = false ∧ (boot [0]).fault = none ∧
    32764 < ({ boot [0] with pc := 32765 } : State).pc.toNat := by decide
theorem witness_InvalidOpcodeIsFatal : CanFetch (boot [22]) ∧
    22 ≤ (Memory.read (boot [22]).mem (boot [22]).pc.toNat).toNat := by decide
theorem witness_OperandMultiplexer : (32767 : Word).toNat ≤ 32767 ∧ (32768 : Word).toNat = 32768 + (0 : Fin 8).val ∧
    (32775 : Word).toNat = 32768 + (7 : Fin 8).val ∧ 32776 ≤ (32776 : Word).toNat := by decide
theorem witness_DestinationMustBeRegister : (32768 : Word).toNat = 32768 + (0 : Fin 8).val ∧
    (32775 : Word).toNat = 32768 + (7 : Fin 8).val ∧ (32767 : Word).toNat ≤ 32767 ∧ 32776 ≤ (32776 : Word).toNat := by decide
theorem witness_FirstBadOperandFaults :
    (Instr.mod 32768 40000 0).operandRoles = [(.destination, 32768)] ++ (Role.source, 40000) :: [(.source, 0)] ∧
    (∀ p ∈ [(Role.destination, (32768 : Word))], ¬BadOperand p) ∧ BadOperand (Role.source, 40000) := by
  refine ⟨rfl, fun p hp => ?_, by decide⟩
  rw [List.mem_singleton] at hp
  subst hp
  decide
theorem witness_WellFormedIffNoInvalidRegister : busy.fault = none ∧ (Instr.pop 32775).wellFormed = true ∧
    (∃ t, exec (.pop 32775) busy = .next t) ∧ (Instr.pop 32767).wellFormed = false := ⟨rfl, by decide, ⟨_, rfl⟩, by decide⟩

theorem witness_JmpLoadsTarget : SourceValue busy 32775 40000 ∧ SourceValue busy 32767 32767 ∧ BadSource 32776 := by decide
theorem witness_JtJumpsWhenNonzero : (SourceValue busy 32769 32768 ∧ SourceValue busy 100 100) ∧
    (SourceValue busy 32771 0 ∧ SourceValue busy 100 100) ∧ BadSource 32776 ∧ (¬BadSource 32775 ∧ BadSource 65535) := by decide
theorem witness_JfJumpsWhenZero : (SourceValue busy 0 0 ∧ SourceValue busy 32775 40000) ∧
    (SourceValue busy 32769 32768 ∧ SourceValue busy 100 100) ∧ BadSource 32776 ∧ (¬BadSource 32775 ∧ BadSource 65535) := by decide
theorem witness_CallPushesReturnAddress : SourceValue busy 32768 9 ∧ BadSource 32776 := by decide
theorem witness_RetPopsOrHalts : busy.stack = [5] ++ [300] ∧ (boot [18]).stack = [] := by decide
theorem witness_SetCopiesWord : (DestIndex 32768 0 ∧ DestIndex 32775 7 ∧ SourceValue busy 32770 65535) ∧ BadDest 32767 ∧
    BadDest 32776 ∧ (¬BadDest 32775 ∧ BadSource 32776) := by decide
theorem witness_PushAppendsWord : SourceValue busy 32770 65535 ∧ BadSource 65535 := by decide
theorem witness_PopTakesTop : (DestIndex 32775 7 ∧ busy.stack = [5] ++ [300]) ∧ (¬BadDest 32768 ∧ (boot [3]).stack = []) ∧
    BadDest 32767 ∧ BadDest 32776 := by decide
/-- The operands of the three-operand laws (eq, gt, add, mult, and, or): every clause of the shared shape. -/
theorem witness_ThreeOperandLaw : (DestIndex 32768 0 ∧ DestIndex 32775 7 ∧ SourceValue busy 32770 65535 ∧
    SourceValue busy 32767 32767) ∧ (BadDest 32767 ∧ BadDest 32776) ∧ (¬BadDest 32768 ∧ BadSource 32776) ∧
    (¬BadDest 32775 ∧ ¬BadSource 32775 ∧ BadSource 65535) := by decide
theorem witness_ModStoresRemainder : (DestIndex 32768 0 ∧ SourceValue busy 32775 40000 ∧ SourceValue busy 32769 32768 ∧
    (32768 : Word) ≠ 0) ∧ (¬BadDest 32768 ∧ ¬BadSource 32775 ∧ SourceValue busy 32771 0 ∧ SourceValue busy 0 0) ∧
    BadDest 5 ∧ (¬BadDest 32768 ∧ BadSource 40000) ∧ (¬BadDest 32768 ∧ ¬BadSource 7 ∧ BadSource 32776) := by decide
theorem witness_NotStoresComplement15 : (DestIndex 32775 7 ∧ SourceValue busy 32769 32768) ∧ BadDest 0 ∧
    (¬BadDest 32768 ∧ BadSource 32776) := by decide
theorem witness_RmemReadsCell : (DestIndex 32768 0 ∧ SourceValue busy 32767 32767 ∧ (32767 : Word).toNat ≤ 32767) ∧
    (¬BadDest 32768 ∧ SourceValue busy 32769 32768 ∧ 32767 < (32768 : Word).toNat) ∧ BadDest 5 ∧
    (¬BadDest 32768 ∧ BadSource 32776) := by decide
theorem witness_WmemStoresWord : (busy.mem.wf = true ∧ SourceValue busy 32767 32767 ∧ SourceValue busy 32770 65535 ∧
    (32767 : Word).toNat ≤ 32767) ∧ (SourceValue busy 32769 32768 ∧ ¬BadSource 1 ∧ 32767 < (32768 : Word).toNat) ∧
    BadSource 32776 ∧ (¬BadSource 3 ∧ BadSource 32776) := by decide
theorem witness_OutEmitsByte : (SourceValue busy 255 255 ∧ (255 : Word).toNat ≤ 255) ∧
    (SourceValue busy 256 256 ∧ 255 < (256 : Word).toNat) ∧ BadSource 32776 := by decide
theorem witness_InTakesByteOrWaits : (DestIndex 32768 0 ∧ busy.inStream = 97 :: [1]) ∧
    (¬BadDest 32768 ∧ (boot [20]).inStream = []) ∧ BadDest 0 := by decide

theorem witness_ResultRanges : DestIndex 32768 0 ∧ busy.fault = none ∧
    (∃ t, exec (.add 32768 32770 32770) busy = .next t ∧ t.fault = none) ∧
    (SourceValue busy 32767 32767 ∧ (32767 : Word).toNat < 32768) := ⟨by decide, rfl, ⟨_, rfl, rfl⟩, by decide⟩
theorem witness_PcAdvancedBeforeEffect : (∃ t, exec (.set 32768 1) busy = .next t) ∧ (∃ t, exec (.inp 32768) busy = .next t) ∧
    busy.inStream ≠ [] ∧ (∃ t, exec (.call 9) busy = .next t) ∧ ¬BadSource 9 ∧ SourceValue busy 9 9 ∧
    (∃ t, exec (.jt 1 9) busy = .next t) ∧ SourceValue busy 1 1 ∧ busy.stack = [5] ++ [300] :=
  ⟨⟨_, rfl⟩, ⟨_, rfl⟩, by decide, ⟨_, rfl⟩, by decide, by decide, ⟨_, rfl⟩, by decide, rfl⟩
theorem witness_FrameOfRegisterWriters : (∃ t, exec (.add 32768 32770 1) busy = .next t) ∧ ¬DestIndex 32768 7 :=
  ⟨⟨_, rfl⟩, by decide⟩
theorem witness_FrameOfStackInstructions : (∃ t, exec (.pop 32768) busy = .next t) ∧ ¬DestIndex 32768 1 := ⟨⟨_, rfl⟩, by decide⟩
theorem witness_FrameOfControlInstructions : ∃ t, exec (.jt 32769 100) busy = .next t := ⟨_, rfl⟩
theorem witness_FrameOfStore : (∃ t, exec (.wmem 32767 32770) busy = .next t) ∧ val 32767 busy = .ok 32767 ∧
    val 32776 busy = .error (.invalidRegister 32776) := ⟨⟨_, rfl⟩, by rfl, by rfl⟩
theorem witness_FrameOfInputOutput : (∃ t, exec (.out 255) busy = .next t) ∧ (∃ t, exec (.inp 32768) busy = .next t) :=
  ⟨⟨_, rfl⟩, ⟨_, rfl⟩⟩
theorem witness_StepKeepsInvariant : (boot [16, 3, 99]).Inv ∧ ∃ t, step (boot [16, 3, 99]) = .next t := ⟨by decide, _, rfl⟩
theorem witness_ResetState : ([9, 32768, 32769, 60] : List Word).length ≤ 32768 ∧
    (List.replicate 65538 (0 : Byte)).length % 2 = 0 ∧ 65536 < (List.replicate 65538 (0 : Byte)).length := by
  refine ⟨by decide, ?_, ?_⟩ <;> rw [List.length_replicate]
  decide
theorem witness_HaltedExactlyByHaltAndEmptyRet : (∃ t, step (boot [0]) = .next t ∧ t.halted = true) ∧
    (boot [0]).halted = false ∧ (CanFetch (boot [0]) ∧ NextIs (boot [0]) .halt) ∧
    (CanFetch (boot [18]) ∧ NextIs (boot [18]) .ret ∧ (boot [18]).stack = []) :=
  ⟨⟨_, rfl, rfl⟩, rfl, ⟨by decide, _, rfl⟩, by decide, ⟨_, rfl⟩, rfl⟩
theorem witness_FaultWritesOnlyPc : (boot [3, 32768]).fault = none ∧
    ∃ t, step (boot [3, 32768]) = .next t ∧ t.fault ≠ none := ⟨rfl, _, rfl, by decide⟩
theorem witness_FaultCausesByInstruction : CanFetch (boot [19, 256]) ∧ NextIs (boot [19, 256]) (.out 256) ∧
    ∃ t, step (boot [19, 256]) = .next t ∧ t.fault = some (.cannotPrint 256) := ⟨by decide, ⟨_, rfl⟩, _, rfl, rfl⟩
theorem witness_EachStoreChangedByItsInstructions : (∃ t, step (boot [16, 3, 99]) = .next t ∧ t.mem ≠ (boot [16, 3, 99]).mem) ∧
    (∃ t, step (boot [2, 5]) = .next t ∧ t.stack ≠ (boot [2, 5]).stack) ∧
    (∃ t, step (boot [19, 65]) = .next t ∧ t.outStream ≠ (boot [19, 65]).outStream) ∧
    (∃ t, step { boot [20, 32768] with inStream := [97] } = .next t ∧ t.inStream ≠ [97]) :=
  ⟨⟨_, rfl, by decide⟩, ⟨_, rfl, by decide⟩, ⟨_, rfl, by decide⟩, ⟨_, rfl, by decide⟩⟩
/-- The store changes the Word the next step fetches, to an invalid opcode. -/
theorem witness_StoreSeenByNextFetch : CanFetch (boot [16, 3, 22]) ∧ (boot [16, 3, 22]).mem.wf = true ∧
    NextIs (boot [16, 3, 22]) (.wmem 3 22) ∧ SourceValue (boot [16, 3, 22]) 3 3 ∧ SourceValue (boot [16, 3, 22]) 22 22 ∧
    (3 : Word).toNat ≤ 32767 ∧ ∃ t, step (boot [16, 3, 22]) = .next t ∧ CanFetch t ∧ (3 : Word) = t.pc ∧ 21 < (22 : Word).toNat :=
  ⟨by decide, rfl, ⟨_, rfl⟩, by decide, by decide, by decide, _, rfl, by decide, rfl, by decide⟩
theorem witness_BadTargetFaultsAtNextFetch : CanFetch (boot [6, 32765]) ∧ NextIs (boot [6, 32765]) (.jmp 32765) ∧
    32764 < (32765 : Word).toNat ∧ SourceValue (boot [6, 32765]) 32765 32765 := ⟨by decide, ⟨_, rfl⟩, by decide, by decide⟩
theorem witness_BadTargetFaultsAtNextFetch_conditional :
    (CanFetch (boot [7, 1, 32767]) ∧ NextIs (boot [7, 1, 32767]) (.jt 1 32767) ∧ SourceValue (boot [7, 1, 32767]) 1 1 ∧
      SourceValue (boot [7, 1, 32767]) 32767 32767) ∧
    (CanFetch { boot [18] with stack := [65535] } ∧ NextIs { boot [18] with stack := [65535] } .ret ∧
      ({ boot [18] with stack := [65535] } : State).stack = [] ++ [65535]) :=
  ⟨⟨by decide, ⟨_, rfl⟩, by decide, by decide⟩, by decide, ⟨_, rfl⟩, rfl⟩
theorem witness_InputWaitLiftedByHost : CanFetch (boot [20, 32768]) ∧ NextIs (boot [20, 32768]) (.inp 32768) ∧
    DestIndex 32768 0 ∧ (boot [20, 32768]).inStream = [] := ⟨by decide, ⟨_, rfl⟩, by decide, rfl⟩
theorem witness_StreamsInfluenceRunOnlyByTakenByte : (∃ t, step busy = .next t) ∧ CanFetch busy ∧
    (∀ a, ¬NextIs busy (.inp a)) ∧ busy.inStream = 97 :: [1] := by
  refine ⟨⟨_, rfl⟩, by decide, ?_, rfl⟩
  rintro a ⟨rest, h⟩
  cases h
theorem witness_DumpLayout : (32775 : Nat) = 9 + 32766 ∧ (32766 : Nat) < 32768 ∧ busy.stack[1]? = some 300 ∧
    (8 : Nat) = 1 + (7 : Fin 8).val := by decide
theorem witness_RestoreOfDumpIsIdentity : (boot [9, 32768]).mem.wf = true ∧ busy.fault = none := by decide
theorem witness_RestoreRejectsMalformed : busy.fault = none ∧ ({ busy with halted := true } : State).fault = none ∧ ([1] : List Byte).length < 65554 ∧
    (List.replicate 65555 (0 : Byte)).length % 2 = 1 ∧ (List.replicate 65553 (0 : Byte)).length < 65554 ∧
    ({ busy with fault := some .divideByZero } : State).fault.isSome = true := by
  refine ⟨rfl, rfl, by decide, ?_, ?_, rfl⟩
  · rw [List.length_replicate]
  · rw [List.length_replicate]
    decide
theorem witness_DebugRegisterAccess : (7 : Nat) = (7 : Fin 8).val ∧ busy.fault = none ∧ 65535 < 65536 ∧ 8 ≤ 8 ∧
    ({ busy with fault := some .divideByZero } : State).fault.isSome = true := by decide
theorem witness_ImageLoadsLittleEndian : ([9, 0, 0, 128] : List Byte).length % 2 = 0 ∧
    ([9, 0, 0, 128] : List Byte)[2 * 1 + 1]? = some 128 ∧ ([9] : List Byte).length % 2 = 1 ∧
    (List.replicate 65536 (0 : Byte)).length ≤ 65536 ∧ (List.replicate 65537 (0 : Byte)).length % 2 = 1 ∧
    ((List.replicate 65535 (0 : Byte)).length % 2 = 1 ∧ (List.replicate 65535 (0 : Byte)).length ≤ 65536) := by
  simp only [List.length_replicate]
  decide
theorem witness_TriggersStopSession : (watched 4 4 1).engine.pc ∈ (watched 4 4 1).session.breakpoints ∧
    ((watched 0 4 60).engine.pc.toNat ≤ 32764 ∧ NextIs (watched 0 4 60).engine (.add 32768 32769 60) ∧
      (60 : Word) ∈ (Instr.add 32768 32769 60).operands ∧ (60 : Word) ∈ (watched 0 4 60).session.watchpoints) :=
  ⟨by decide, by decide, ⟨_, rfl⟩, by decide, by decide⟩

end Sys2Proof.Tests
end

/-! ## The two streams (R31)

A step is looked at under every content of the two streams at once. Every meaning but that of `in` is blind to the streams: it
appends the same bytes whatever was emitted, and carries IN_STREAM along. `in` takes the first byte and no more. -/

namespace Sys2Proof.Machine

/-- The state with other streams. -/
def State.withStreams (s : State) (emitted available : List Byte) : State := (s.setOut emitted).setIn available

theorem State.withStreams_self {s : State} {available : List Byte} (h : s.inStream = available) :
    s.withStreams s.outStream available = s := by
  subst h
  rfl

/-- From `s` with any streams, `f` ends in one state but for the streams: it appends the same bytes to OUT_STREAM and leaves
IN_STREAM. -/
def StreamBlind (f : State → Result) (s : State) : Prop :=
  ∃ (t : State) (more : List Byte), ∀ emitted available,
    f (s.withStreams emitted available) = .next (t.withStreams (emitted ++ more) available)

/-- From `s`, `f` waits for a byte, and where there is one, takes it: what follows that byte stays, unread. -/
def TakesOneByte (f : State → Result) (s : State) : Prop :=
  (∀ emitted, f (s.withStreams emitted []) = .next (s.withStreams emitted [])) ∧
  ∀ b, ∃ t : State, ∀ emitted rest, f (s.withStreams emitted (b :: rest)) = .next (t.withStreams emitted rest)

/-! ### The shared operations -/

/-- A meaning that emits nothing and moves the streams along is blind to them. -/
theorem streamBlind_of_silent {f : State → Result} {s t : State}
    (h : ∀ emitted available, f (s.withStreams emitted available) = .next (t.withStreams emitted available)) :
    StreamBlind f s :=
  ⟨t, [], by simpa using h⟩

/-- Resolving a source reads a register at most, so a meaning is blind where its continuations are. -/
theorem streamBlind_withVal {w : Word} {n : Nat} {k : Word → State → Result} {s : State}
    (h : ∀ v, StreamBlind (k v) s) : StreamBlind (fun s => withVal w (s.advance n) fun v => k v s) s := by
  cases hv : val w s with
  | ok v =>
    obtain ⟨t, more, ht⟩ := h v
    exact ⟨t, more, fun emitted available =>
      (withVal_ok (s := (s.withStreams emitted available).advance n) hv).trans (ht emitted available)⟩
  | error c =>
    exact streamBlind_of_silent (t := (s.advance n).latch c) fun _ _ => withVal_error hv

/-- Decoding a destination reads no state. -/
theorem streamBlind_withDst {w : Word} {n : Nat} {k : Fin 8 → State → Result} {s : State}
    (h : ∀ d, StreamBlind (k d) s) : StreamBlind (fun s => withDst w (s.advance n) fun d => k d s) s := by
  cases hd : dst w with
  | ok d =>
    obtain ⟨t, more, ht⟩ := h d
    exact ⟨t, more, fun emitted available => (withDst_ok hd).trans (ht emitted available)⟩
  | error c =>
    exact streamBlind_of_silent (t := (s.advance n).latch c) fun _ _ => withDst_error hd

/-- A meaning that tests a resolved value is blind where both branches are. -/
theorem streamBlind_ite {p : Prop} [Decidable p] {f g : State → Result} {s : State} (hf : StreamBlind f s)
    (hg : StreamBlind g s) : StreamBlind (fun s => if p then f s else g s) s := by
  by_cases hp : p
  · simpa only [if_pos hp] using hf
  · simpa only [if_neg hp] using hg

/-- A fatal condition writes the latch only. -/
theorem streamBlind_raise (c : FatalCause) (n : Nat) (s : State) : StreamBlind (fun s => raise c (s.advance n)) s :=
  streamBlind_of_silent (t := (s.advance n).latch c) fun _ _ => rfl

theorem streamBlind_alu3 (check : Word → Word → Option FatalCause) (f : Word → Word → Word) (a b c : Word) (s : State) :
    StreamBlind (alu3 check f a b c) s := by
  refine streamBlind_withDst fun d => streamBlind_withVal fun vb => streamBlind_withVal fun vc => ?_
  cases check vb vc with
  | none => exact streamBlind_of_silent (t := (s.advance 4).writeReg d (f vb vc)) fun _ _ => rfl
  | some cause => exact streamBlind_raise cause 4 s

theorem streamBlind_jumpWhen (taken : Word → Bool) (a b : Word) (s : State) : StreamBlind (jumpWhen taken a b) s := by
  refine streamBlind_withVal fun va => streamBlind_withVal fun vb => ?_
  cases taken va with
  | true => exact streamBlind_of_silent (t := (s.advance 3).setPc vb) fun _ _ => rfl
  | false => exact streamBlind_of_silent (t := s.advance 3) fun _ _ => rfl

theorem streamBlind_execRet (s : State) : StreamBlind execRet s := by
  rcases popWord_cases (s.advance 1) with ⟨hs, -⟩ | ⟨below, v, hs, -⟩
  · refine streamBlind_of_silent (t := (s.advance 1).setHalted) fun emitted available => ?_
    rw [execRet, popWord_nil (s := (s.withStreams emitted available).advance 1) hs]
    rfl
  · refine streamBlind_of_silent (t := ((s.advance 1).setStack below).setPc v) fun emitted available => ?_
    rw [execRet, popWord_append (s := (s.withStreams emitted available).advance 1) hs]
    rfl

theorem streamBlind_execPop (a : Word) (s : State) : StreamBlind (execPop a) s := by
  refine streamBlind_withDst fun d => ?_
  rcases popWord_cases (s.advance 2) with ⟨hs, -⟩ | ⟨below, v, hs, -⟩
  · refine streamBlind_of_silent (t := (s.advance 2).latch .stackUnderflow) fun emitted available => ?_
    rw [popWord_nil (s := (s.withStreams emitted available).advance 2) hs]
    rfl
  · refine streamBlind_of_silent (t := ((s.advance 2).setStack below).writeReg d v) fun emitted available => ?_
    rw [popWord_append (s := (s.withStreams emitted available).advance 2) hs]
    rfl

/-! ### The meanings -/

/-- Every instruction but `in` is blind to the streams; `out` is the one that emits. -/
theorem streamBlind_exec {i : Instr} (hi : ∀ a, i ≠ .inp a) (s : State) : StreamBlind (exec i) s := by
  cases i with
  | halt => exact streamBlind_of_silent (t := (s.advance 1).setHalted) fun _ _ => rfl
  | noop => exact streamBlind_of_silent (t := s.advance 1) fun _ _ => rfl
  | eq a b c => exact streamBlind_alu3 noCheck _ a b c s
  | gt a b c => exact streamBlind_alu3 noCheck _ a b c s
  | add a b c => exact streamBlind_alu3 noCheck aluAdd a b c s
  | mult a b c => exact streamBlind_alu3 noCheck aluMult a b c s
  | mod a b c => exact streamBlind_alu3 divisorCheck _ a b c s
  | and a b c => exact streamBlind_alu3 noCheck aluAnd a b c s
  | or a b c => exact streamBlind_alu3 noCheck aluOr a b c s
  | set a b =>
    exact streamBlind_withDst fun d => streamBlind_withVal fun v =>
      streamBlind_of_silent (t := (s.advance 3).writeReg d v) fun _ _ => rfl
  | not a b =>
    exact streamBlind_withDst fun d => streamBlind_withVal fun v =>
      streamBlind_of_silent (t := (s.advance 3).writeReg d (aluNot v)) fun _ _ => rfl
  | rmem a b =>
    exact streamBlind_withDst fun d => streamBlind_withVal fun v => streamBlind_ite
      (streamBlind_of_silent (t := (s.advance 3).writeReg d (s.loadWord v)) fun _ _ => rfl) (streamBlind_raise _ 3 s)
  | wmem a b =>
    exact streamBlind_withVal fun u => streamBlind_withVal fun v => streamBlind_ite
      (streamBlind_of_silent (t := (s.advance 3).storeWord u v) fun _ _ => rfl) (streamBlind_raise _ 3 s)
  | jmp a =>
    exact streamBlind_withVal fun v => streamBlind_of_silent (t := (s.advance 2).setPc v) fun _ _ => rfl
  | jt a b => exact streamBlind_jumpWhen _ a b s
  | jf a b => exact streamBlind_jumpWhen _ a b s
  | call a =>
    exact streamBlind_withVal fun v =>
      streamBlind_of_silent (t := ((s.advance 2).pushWord (s.advance 2).pc).setPc v) fun _ _ => rfl
  | ret => exact streamBlind_execRet s
  | push a =>
    exact streamBlind_withVal fun v => streamBlind_of_silent (t := (s.advance 2).pushWord v) fun _ _ => rfl
  | pop a => exact streamBlind_execPop a s
  | out a =>
    exact streamBlind_withVal fun v => streamBlind_ite ⟨s.advance 2, [v.setWidth 8], fun _ _ => rfl⟩
      (streamBlind_raise _ 2 s)
  | inp a => exact absurd rfl (hi a)

/-- `in` takes one byte or waits for it, or its destination is bad and no stream is looked at (R152, log entry 8). -/
theorem execInp_streams (a : Word) (s : State) : StreamBlind (execInp a) s ∨ TakesOneByte (execInp a) s := by
  cases hd : dst a with
  | ok d =>
    exact .inr ⟨fun _ => withDst_ok hd, fun b => ⟨(s.advance 2).writeReg d (b.setWidth 16), fun _ _ => withDst_ok hd⟩⟩
  | error c => exact .inl (streamBlind_of_silent (t := (s.advance 2).latch c) fun _ _ => withDst_error hd)

/-- All an instruction can do with the streams. -/
theorem exec_streams (i : Instr) (s : State) :
    StreamBlind (exec i) s ∨ (∃ a, i = .inp a) ∧ TakesOneByte (exec i) s := by
  by_cases hi : ∃ a, i = .inp a
  · obtain ⟨a, rfl⟩ := hi
    exact (execInp_streams a s).imp_right fun h => ⟨⟨a, rfl⟩, h⟩
  · exact .inl (streamBlind_exec (fun a e => hi ⟨a, e⟩) s)

/-! ### The step -/

theorem step_of_frozen {s : State} (h : s.frozen = true) : step s = .next s := by
  rw [step, issue_frozen h]

theorem step_of_fetchDecode_error {s : State} {c : FatalCause} (hf : s.frozen = false)
    (hd : fetchDecode Config.strictLookahead s.mem s.pc = .error c) : step s = .next (s.latchAtFetch c) := by
  simp [step, issue, hf, hd]

theorem step_of_fetchDecode_ok {s : State} {i : Instr} (hf : s.frozen = false)
    (hd : fetchDecode Config.strictLookahead s.mem s.pc = .ok i) : step s = exec i s := by
  simp [step, issue, hf, hd]

theorem latchAtFetch_withStreams (s : State) (c : FatalCause) (emitted available : List Byte) :
    (s.withStreams emitted available).latchAtFetch c = (s.latchAtFetch c).withStreams emitted available := by
  cases c <;> rfl

/-- All a step can do with the streams: it is blind to them, or it runs an `in` that waits for a byte or takes one. The head of
the step looks at neither stream, so it picks the same instruction whatever they hold. -/
theorem step_streams (s : State) :
    StreamBlind step s ∨ (CanFetch s ∧ ∃ a, NextIs s (.inp a)) ∧ TakesOneByte step s := by
  cases hf : s.frozen with
  | true => exact .inl (streamBlind_of_silent fun _ _ => step_of_frozen hf)
  | false =>
    cases hd : fetchDecode Config.strictLookahead s.mem s.pc with
    | error c =>
      refine .inl (streamBlind_of_silent (t := s.latchAtFetch c) fun emitted available => ?_)
      rw [← latchAtFetch_withStreams]
      exact step_of_fetchDecode_error hf hd
    | ok i =>
      have hstep (emitted available) :
          step (s.withStreams emitted available) = exec i (s.withStreams emitted available) :=
        step_of_fetchDecode_ok hf hd
      rcases exec_streams i s with hb | ⟨⟨a, rfl⟩, ht⟩
      · exact .inl (by simpa only [StreamBlind, hstep] using hb)
      · obtain ⟨hc, hn⟩ := nextIs_of_fetchDecode hf hd
        exact .inr ⟨⟨hc, a, hn⟩, by simpa only [TakesOneByte, hstep] using ht⟩

/-- What waits for a byte or takes one does the same whatever was emitted. -/
theorem TakesOneByte.ignores_emitted {f : State → Result} {s : State} (h : TakesOneByte f s) (available : List Byte) :
    ∃ (t : State) (left : List Byte), ∀ emitted,
      f (s.withStreams emitted available) = .next (t.withStreams emitted left) := by
  obtain ⟨hwait, htake⟩ := h
  cases available with
  | nil => exact ⟨s, [], hwait⟩
  | cons b rest =>
    obtain ⟨t, ht⟩ := htake b
    exact ⟨t, rest, fun emitted => ht emitted rest⟩

/-- OUT_STREAM is appended to only and never read. -/
theorem step_appends_out (s : State) (emitted : List Byte) : ∃ (t : State) (more : List Byte),
    step s = .next t ∧ t.outStream = s.outStream ++ more ∧
    step { s with outStream := emitted } = .next { t with outStream := emitted ++ more } := by
  rcases step_streams s with ⟨t, more, ht⟩ | ⟨-, htake⟩
  · exact ⟨_, more, ht s.outStream s.inStream, rfl, ht emitted s.inStream⟩
  · obtain ⟨t, left, ht⟩ := htake.ignores_emitted s.inStream
    refine ⟨_, [], ht s.outStream, (List.append_nil _).symm, ?_⟩
    rw [List.append_nil]
    exact ht emitted

/-- A step leaves IN_STREAM or removes its first byte. -/
theorem step_keeps_or_drops_first_in {s t : State} (h : step s = .next t) :
    t.inStream = s.inStream ∨ ∃ b, s.inStream = b :: t.inStream := by
  rcases step_streams s with ⟨u, more, hu⟩ | ⟨-, hwait, htake⟩
  · have hs : step s = _ := hu s.outStream s.inStream
    cases hs.symm.trans h
    exact .inl rfl
  · cases hin : s.inStream with
    | nil =>
      have hs := hwait s.outStream
      rw [State.withStreams_self hin, h] at hs
      cases hs
      exact .inl hin
    | cons b rest =>
      obtain ⟨u, hu⟩ := htake b
      have hs := hu s.outStream rest
      rw [State.withStreams_self hin, h] at hs
      cases hs
      exact .inr ⟨b, rfl⟩

/-- Where a byte is available, a step takes it or leaves IN_STREAM, and is the same whatever follows that byte. -/
theorem step_ignores_after_first {s : State} {b : Byte} {rest : List Byte} (h : s.inStream = b :: rest)
    (other : List Byte) : ∃ t : State, step s = .next t ∧
      ((t.inStream = rest ∧ step { s with inStream := b :: other } = .next { t with inStream := other }) ∨
       (t.inStream = b :: rest ∧ step { s with inStream := b :: other } = .next { t with inStream := b :: other })) := by
  have hs : step s = step (s.withStreams s.outStream (b :: rest)) := by rw [State.withStreams_self h]
  rcases step_streams s with ⟨t, more, ht⟩ | ⟨-, -, htake⟩
  · exact ⟨_, hs.trans (ht s.outStream (b :: rest)), .inr ⟨rfl, ht s.outStream (b :: other)⟩⟩
  · obtain ⟨t, ht⟩ := htake b
    exact ⟨_, hs.trans (ht s.outStream rest), .inl ⟨rfl, ht s.outStream other⟩⟩

/-- A step that runs no `in` is the same for every IN_STREAM and leaves it. -/
theorem step_ignores_in {s : State} (h : CanFetch s → ∀ a, ¬NextIs s (.inp a)) (available : List Byte) :
    ∃ t : State, step s = .next t ∧ t.inStream = s.inStream ∧
      step { s with inStream := available } = .next { t with inStream := available } := by
  rcases step_streams s with ⟨t, more, ht⟩ | ⟨⟨hc, a, hn⟩, -⟩
  · exact ⟨_, ht s.outStream s.inStream, rfl, ht s.outStream available⟩
  · exact absurd hn (h hc a)

/-- A snapshot holds neither stream (R34, R183). -/
theorem dump_ignores_streams (s : State) (emitted available : List Byte) :
    dump { s with outStream := emitted, inStream := available } = dump s := rfl

/-- Settles O54: the five clauses, each read off what a step can do with the streams (`step_streams`). -/
theorem streamsInfluenceRunOnlyByTakenByte : Obligations.StreamsInfluenceRunOnlyByTakenByte :=
  ⟨step_appends_out, fun _ _ => step_keeps_or_drops_first_in, fun _ available h => step_ignores_in h available,
    fun _ _ _ other h => step_ignores_after_first h other, dump_ignores_streams⟩

end Sys2Proof.Machine

/-! ## The opcode map (R65) -/

namespace Sys2Proof

open Laws in
/-- Every instruction has the encoded form that `Laws.EncodedForm` proves of each constructor. -/
theorem encodedForm : ∀ i : Instr, EncodedForm.Statement i
  | .halt => EncodedForm.halt
  | .set a b => EncodedForm.set a b
  | .push a => EncodedForm.push a
  | .pop a => EncodedForm.pop a
  | .eq a b c => EncodedForm.eq a b c
  | .gt a b c => EncodedForm.gt a b c
  | .jmp a => EncodedForm.jmp a
  | .jt a b => EncodedForm.jt a b
  | .jf a b => EncodedForm.jf a b
  | .add a b c => EncodedForm.add a b c
  | .mult a b c => EncodedForm.mult a b c
  | .mod a b c => EncodedForm.mod a b c
  | .and a b c => EncodedForm.and a b c
  | .or a b c => EncodedForm.or a b c
  | .not a b => EncodedForm.not a b
  | .rmem a b => EncodedForm.rmem a b
  | .wmem a b => EncodedForm.wmem a b
  | .call a => EncodedForm.call a
  | .ret => EncodedForm.ret
  | .out a => EncodedForm.out a
  | .inp a => EncodedForm.inp a
  | .noop => EncodedForm.noop

/-- R65 assigns the opcode numbers 0 to 21 and no others. -/
theorem opcode_le (i : Instr) : i.opcode.toNat ≤ 21 := by
  obtain ⟨-, hop, -, -⟩ := encodedForm i
  exact hop

theorem instr_length_eq (i : Instr) : i.length = i.arity + 1 := rfl

/-- Settles O3: the bound holds of every constructor (`opcode_le`), and each row of R65's table is what `encode`, `mnemonic`,
`arity` and `length` compute from the constructor. -/
theorem opcodeMapOfEveryInstruction : Obligations.OpcodeMapOfEveryInstruction := by
  refine ⟨fun i => ⟨opcode_le i, instr_length_eq i⟩, fun a b c => ⟨?words, ?table⟩⟩
  case words => simp only [encode, Instr.opcode, Instr.operands, Instr.operandRoles, List.map_cons, List.map_nil, and_self]
  case table => rfl

end Sys2Proof

/-! ## The lookahead read by arity (R66, R82)

R65's table, with the lookahead's Words as operands, meets every opcode number from 0 to 21 once. So an opcode Word up to 21 and
its lookahead are the Words of one of the table's instructions, then those its arity leaves. -/

namespace Sys2Proof

/-- The rows of R65 in order, each with the operand Words `a`, `b`, `c` its arity calls for. -/
def opcodeRows (a b c : Word) : List Instr :=
  [.halt, .set a b, .push a, .pop a, .eq a b c, .gt a b c, .jmp a, .jt a b, .jf a b, .add a b c, .mult a b c, .mod a b c,
    .and a b c, .or a b c, .not a b, .rmem a b, .wmem a b, .call a, .ret, .out a, .inp a, .noop]

theorem map_opcode_opcodeRows (a b c : Word) :
    (opcodeRows a b c).map Instr.opcode = (List.range 22).map (BitVec.ofNat 16) := rfl

theorem operands_of_mem_opcodeRows {a b c : Word} {i : Instr} (h : i ∈ opcodeRows a b c) :
    i.operands = [a, b, c].take i.arity :=
  have hmap : (opcodeRows a b c).map Instr.operands = (opcodeRows a b c).map fun i => [a, b, c].take i.arity := rfl
  List.map_inj_left.1 hmap i h

theorem exists_opcodeRow {w : Word} (h : w.toNat ≤ 21) (a b c : Word) : ∃ i ∈ opcodeRows a b c, i.opcode = w := by
  have hrange : w ∈ (List.range 22).map (BitVec.ofNat 16) :=
    List.mem_map.2 ⟨w.toNat, List.mem_range.2 (Nat.lt_succ_of_le h), (word_eq_of_toNat rfl).symm⟩
  rw [← map_opcode_opcodeRows a b c] at hrange
  exact List.mem_map.1 hrange

/-- The decoder reads an instruction back from its own Words and takes no Word after them (R62, R82). -/
theorem decode_encode_append (i : Instr) (rest : List Word) : decode (encode i ++ rest) = .ok (i, rest) := by
  cases i <;> rfl

/-- No opcode is numbered above 21 (R66). -/
theorem decodeFrom_above {w : Word} (h : 21 < w.toNat) (ws : List Word) : decodeFrom w ws = .error (.invalidOpcode w) := by
  obtain ⟨n, hn⟩ := Nat.exists_eq_add_of_le' (show 22 ≤ w.toNat from h)
  simp only [decodeFrom, hn]

/-- An opcode Word up to 21 and its lookahead are an instruction's Words, then those its arity leaves (R82). -/
theorem decode_lookahead {w : Word} (h : w.toNat ≤ 21) (a b c : Word) : ∃ i,
    decode [w, a, b, c] = .ok (i, [a, b, c].drop i.arity) ∧ i.opcode = w ∧ i.operands = [a, b, c].take i.arity := by
  obtain ⟨i, hi, rfl⟩ := exists_opcodeRow h a b c
  have hops := operands_of_mem_opcodeRows hi
  have hwords : encode i ++ [a, b, c].drop i.arity = [i.opcode, a, b, c] := by
    rw [encode, hops, List.cons_append, List.take_append_drop]
  exact ⟨i, hwords ▸ decode_encode_append i _, rfl, hops⟩

end Sys2Proof

namespace Sys2Proof.Machine

/-- A step that fetches an opcode Word above 21 records it, as an Invalid Operation does (R66, R82). -/
theorem step_of_opcode_above {s : State} (hc : CanFetch s) (h : 21 < (Memory.read s.mem s.pc.toNat).toNat) :
    step s = .next (s.latchInvalidOpcode (Memory.read s.mem s.pc.toNat)) := by
  have hfetch : fetchDecode Config.strictLookahead s.mem s.pc = .error (.invalidOpcode (Memory.read s.mem s.pc.toNat)) := by
    obtain ⟨-, -, hpc⟩ := hc
    simp only [fetchDecode_of_le hpc, decode_cons, decodeFrom_above h]
  exact step_of_fetchDecode_error (frozen_of_canFetch hc) hfetch

/-- Settles O5: up to 21 the lookahead is read by arity (`decode_lookahead`); above 21 nothing decodes and the step latches. -/
theorem decodeCarriesArityWords : Obligations.DecodeCarriesArityWords := by
  refine fun w0 w1 w2 w3 => ⟨fun hle => ?_, fun hlt => ⟨decodeFrom_above hlt _, ?_⟩⟩
  · obtain ⟨i, hdecode, hop, hops⟩ := decode_lookahead hle w1 w2 w3
    exact ⟨i, hdecode, hop, hops, instr_length_eq i⟩
  · rintro s hc rfl
    exact ⟨_, step_of_opcode_above hc hlt, rfl⟩

/-! ## The operand multiplexer (R83) -/

/-- Settles O11: a literal and a register reference are the two ways to have a source value; any other Word is a bad source. -/
theorem operandMultiplexer : Obligations.OperandMultiplexer :=
  fun _ _ => ⟨fun hlit => val_of_sourceValue (.inl ⟨hlit, rfl⟩), fun r hreg => val_of_sourceValue (.inr ⟨r, hreg, rfl⟩),
    val_of_badSource⟩

end Sys2Proof.Machine

/-! ## The two ways to halt (R163) -/

namespace Sys2Proof.Machine

@[simp] theorem latchAtFetch_halted (s : State) (c : FatalCause) : (s.latchAtFetch c).halted = s.halted := by
  cases c <;> rfl

theorem step_of_nextIs {s : State} {i : Instr} (hc : CanFetch s) (hn : NextIs s i) : step s = exec i s := by
  rw [step, issue_of_nextIs hc hn]

theorem exec_halt (s : State) : exec .halt s = .next (s.advance 1).setHalted := rfl

theorem exec_ret_of_empty {s : State} (h : s.stack = []) : exec .ret s = .next (s.advance 1).setHalted := by
  have hpop : (s.advance 1).popWord = none := popWord_nil h
  simp only [exec, execRet, hpop]

/-- Of all instructions only `halt`, and `ret` on an empty stack, touch `halted` in their own effect. -/
theorem effect_halted {i : Instr} {s t : State} (h : Effect i s t) :
    t.halted = s.halted ∨ i = .halt ∨ (i = .ret ∧ s.stack = []) := by
  cases i with
  | halt => exact .inr (.inl rfl)
  | ret =>
    obtain ⟨hempty, -⟩ | ⟨_, _, -, rfl⟩ := h
    · exact .inr (.inr ⟨rfl, hempty⟩)
    · exact .inl rfl
  | noop =>
    cases h
    exact .inl rfl
  | push | jmp | call =>
    obtain ⟨_, -, rfl⟩ := h
    exact .inl rfl
  | out =>
    obtain ⟨_, -, -, rfl⟩ := h
    exact .inl rfl
  | set | not =>
    obtain ⟨_, _, -, -, rfl⟩ := h
    exact .inl rfl
  | rmem | wmem =>
    obtain ⟨_, _, -, -, -, rfl⟩ := h
    exact .inl rfl
  | pop =>
    obtain ⟨_, _, _, -, -, rfl⟩ := h
    exact .inl rfl
  | eq | gt | add | mult | and | or =>
    obtain ⟨_, _, _, -, -, -, rfl⟩ := h
    exact .inl rfl
  | mod =>
    obtain ⟨_, _, _, -, -, -, -, rfl⟩ := h
    exact .inl rfl
  | jt | jf =>
    obtain ⟨_, _, -, -, rfl⟩ := h
    left
    split <;> rfl
  | inp =>
    obtain ⟨_, -, -, rfl⟩ | ⟨_, _, _, -, -, rfl⟩ := h <;> exact .inl rfl

/-- Raising a fatal condition leaves `halted` (R161), so executing an instruction sets it in the ways its effect does. -/
theorem exec_halted {i : Instr} {s t : State} (h : exec i s = .next t) :
    t.halted = s.halted ∨ i = .halt ∨ (i = .ret ∧ s.stack = []) := by
  obtain heffect | ⟨c, rfl, -⟩ := exec_cases h
  · exact effect_halted heffect
  · exact .inl rfl

/-- A step that sets `halted` ran `halt`, or `ret` on an empty stack. -/
theorem halts_of_step {s t : State} (h : step s = .next t) (hs : s.halted = false) (ht : t.halted = true) :
    CanFetch s ∧ (NextIs s .halt ∨ (NextIs s .ret ∧ s.stack = [])) := by
  have hchanged : t.halted ≠ s.halted := by simp [hs, ht]
  obtain ⟨-, rfl⟩ | ⟨-, c, -, rfl⟩ | ⟨hf, i, hd, hexec⟩ := step_cases h
  · exact absurd rfl hchanged
  · exact absurd (latchAtFetch_halted s c) hchanged
  · obtain ⟨hc, hn⟩ := nextIs_of_fetchDecode hf hd
    obtain hsame | rfl | ⟨rfl, hempty⟩ := exec_halted hexec
    · exact absurd hsame hchanged
    · exact ⟨hc, .inl hn⟩
    · exact ⟨hc, .inr ⟨hn, hempty⟩⟩

theorem step_of_halting {s : State} (hc : CanFetch s) (h : NextIs s .halt ∨ (NextIs s .ret ∧ s.stack = [])) :
    step s = .next (s.advance 1).setHalted := by
  obtain hn | ⟨hn, hempty⟩ := h
  · rw [step_of_nextIs hc hn, exec_halt]
  · rw [step_of_nextIs hc hn, exec_ret_of_empty hempty]

/-- Settles O47: what sets `halted` is found by inverting the step (`halts_of_step`); the other direction runs the two
instructions (`step_of_halting`); a halted engine is frozen. -/
theorem haltedExactlyByHaltAndEmptyRet : Obligations.HaltedExactlyByHaltAndEmptyRet := by
  refine ⟨fun s t => halts_of_step, fun s hc hn => ⟨_, step_of_halting hc hn, rfl, ?_⟩,
    fun s hs => step_of_frozen ((frozen_iff s).2 (.inr hs))⟩
  obtain ⟨-, hfault, -⟩ := hc
  exact hfault

end Sys2Proof.Machine

/-! ## The layout of a snapshot (R183) -/

namespace Sys2Proof

theorem lowByte_eq (w : Word) : w.extractLsb' 0 8 = BitVec.ofNat 8 (w.toNat % 256) := by
  rw [← toNat_lowByte, BitVec.ofNat_toNat, BitVec.setWidth_eq]

theorem highByte_eq (w : Word) : w.extractLsb' 8 8 = BitVec.ofNat 8 (w.toNat / 256) := by
  rw [← toNat_highByte, BitVec.ofNat_toNat, BitVec.setWidth_eq]

/-- Word `k` of a packing is bytes `2k` and `2k + 1`, low byte first (R42). -/
theorem getElem?_bytesOfWords {w : Word} : ∀ {ws : List Word} {k : Nat}, ws[k]? = some w →
    (bytesOfWords ws)[2 * k]? = some (BitVec.ofNat 8 (w.toNat % 256)) ∧
    (bytesOfWords ws)[2 * k + 1]? = some (BitVec.ofNat 8 (w.toNat / 256))
  | _ :: _, 0, h => by
    cases h
    rw [bytesOfWords_cons, ← lowByte_eq, ← highByte_eq]
    exact ⟨rfl, rfl⟩
  | _ :: ws, k + 1, h => by
    rw [List.getElem?_cons_succ] at h
    exact getElem?_bytesOfWords (ws := ws) (k := k) h

end Sys2Proof

namespace Sys2Proof.Machine

theorem length_snapshotWords (s : State) : (snapshotWords s).length = 32777 + s.stack.length := by
  simp only [snapshotWords, List.length_cons, List.length_append, Vector.length_toList, Memory.length_words, Config.memWords]
  omega

/-! ### Where each part of the state stands among the Words -/

theorem snapshotWords_pc (s : State) : (snapshotWords s)[0]? = some s.pc := rfl

theorem snapshotWords_register (s : State) (r : Fin 8) : (snapshotWords s)[1 + r.val]? = some s.x[r] := by
  have hr : r.val < s.x.toList.length := by simp
  rw [snapshotWords, Nat.add_comm, List.getElem?_cons_succ, List.getElem?_append_left hr]
  simp

/-- Past pc and the registers the Words are those of the memory, then the stack. -/
theorem snapshotWords_past_registers (s : State) (n : Nat) :
    (snapshotWords s)[9 + n]? = (Memory.words s.mem 0 Config.memWords ++ s.stack)[n]? := by
  have hlen : s.x.toList.length = 8 := Vector.length_toList
  rw [snapshotWords, show 9 + n = 8 + n + 1 by omega, List.getElem?_cons_succ, List.getElem?_append_right (by omega), hlen,
    Nat.add_sub_cancel_left]

theorem snapshotWords_cell (s : State) {n : Nat} (h : n < 32768) :
    (snapshotWords s)[9 + n]? = some (Memory.read s.mem n) := by
  have hn : n < (Memory.words s.mem 0 Config.memWords).length := by rwa [Memory.length_words]
  rw [snapshotWords_past_registers, List.getElem?_append_left hn, Memory.getElem?_words s.mem 0 Config.memWords n h,
    Nat.zero_add]

theorem snapshotWords_stack (s : State) (n : Nat) : (snapshotWords s)[32777 + n]? = s.stack[n]? := by
  have hlen : (Memory.words s.mem 0 Config.memWords).length = 32768 := Memory.length_words _ _ _
  rw [show 32777 + n = 9 + (32768 + n) by omega, snapshotWords_past_registers, List.getElem?_append_right (by omega), hlen,
    Nat.add_sub_cancel_left]

/-! ### The snapshot's bytes -/

theorem length_dump (s : State) : (dump s).length = 65554 + 2 * s.stack.length := by
  rw [dump, length_bytesOfWords, length_snapshotWords]
  omega

theorem dump_congr {s t : State} (hpc : t.pc = s.pc) (hx : t.x = s.x) (hmem : t.mem = s.mem) (hstack : t.stack = s.stack) :
    dump t = dump s := by
  simp only [dump, snapshotWords, hpc, hx, hmem, hstack]

/-- Settles O55: each part of the state is one Word of the snapshot at its place, and a Word is two bytes of it
(`getElem?_bytesOfWords`). -/
theorem dumpLayout : Obligations.DumpLayout := by
  refine ⟨fun s => ⟨length_dump s, fun k w hplace => getElem?_bytesOfWords ?_⟩, fun _ _ => dump_congr⟩
  obtain ⟨rfl, rfl⟩ | ⟨r, rfl, rfl⟩ | ⟨n, hn, rfl, rfl⟩ | ⟨n, rfl, hw⟩ := hplace
  · exact snapshotWords_pc s
  · exact snapshotWords_register s r
  · exact snapshotWords_cell s hn
  · exact (snapshotWords_stack s n).trans hw

end Sys2Proof.Machine

/-! ## Reading bytes as Words (R42, R203) -/

namespace Sys2Proof

/-- Every byte of an even number has its partner: the bytes read as half as many Words. -/
theorem wordsOfBytes_of_even : ∀ {bytes : List Byte}, bytes.length % 2 = 0 →
    ∃ ws, wordsOfBytes bytes = some ws ∧ bytes.length = 2 * ws.length
  | [], _ => ⟨[], rfl, rfl⟩
  | low :: high :: rest, h => by
    rw [List.length_cons, List.length_cons] at h
    obtain ⟨ws, hws, hlen⟩ := wordsOfBytes_of_even (bytes := rest) (by omega)
    refine ⟨wordOfBytes low high :: ws, by rw [wordsOfBytes_two, hws, Option.map_some], ?_⟩
    simp only [List.length_cons, hlen]
    omega

/-- A trailing odd byte is malformed. -/
theorem wordsOfBytes_of_odd : ∀ {bytes : List Byte}, bytes.length % 2 = 1 → wordsOfBytes bytes = none
  | [_], _ => rfl
  | low :: high :: rest, h => by
    rw [List.length_cons, List.length_cons] at h
    rw [wordsOfBytes_two, wordsOfBytes_of_odd (bytes := rest) (by omega), Option.map_none]

/-- Word `k` read from bytes is that of bytes `2k` and `2k + 1`, low byte first (R42). -/
theorem getElem?_wordsOfBytes {low high : Byte} : ∀ {bytes : List Byte} {ws : List Word} {k : Nat},
    wordsOfBytes bytes = some ws → bytes[2 * k]? = some low → bytes[2 * k + 1]? = some high →
    ws[k]? = some (wordOfBytes low high)
  | _ :: _ :: _, _, k, h, hlow, hhigh => by
    obtain ⟨ws, hrest, rfl⟩ := Option.map_eq_some_iff.1 h
    cases k with
    | zero =>
      cases hlow
      cases hhigh
      rfl
    | succ k => exact getElem?_wordsOfBytes (k := k) hrest hlow hhigh

end Sys2Proof

/-! ## Loading a program image (R203) -/

namespace Sys2Proof.Machine

theorem read_hostReset (image : List Word) (input : List Byte) (s : State) (n : Nat) :
    Memory.read (hostReset image input s).mem n = image.getD n 0 :=
  Memory.read_ofWords image n

theorem loadImage_of_words {bytes : List Byte} {ws : List Word} (h : wordsOfBytes bytes = some ws)
    (hfits : ws.length ≤ Config.memWords) (input : List Byte) (s : State) :
    loadImage bytes input s = .ok (hostReset ws input s) := by
  simp only [loadImage, imageWords, h, if_pos hfits]

/-- The pairing of the bytes is looked at before the image's size. -/
theorem loadImage_of_odd {bytes : List Byte} (h : bytes.length % 2 = 1) (input : List Byte) (s : State) :
    loadImage bytes input s = .error .oddLength := by
  simp only [loadImage, imageWords, wordsOfBytes_of_odd h]

/-- Settles O59: the bytes of an even image are Words (`wordsOfBytes_of_even`), each that of its pair (`getElem?_wordsOfBytes`);
an odd image is refused whatever its size (`loadImage_of_odd`). -/
theorem imageLoadsLittleEndian : Obligations.ImageLoadsLittleEndian := by
  refine fun bytes input s => ⟨fun heven hsize => ?_, fun hodd => ⟨_, loadImage_of_odd hodd input s⟩,
    fun hodd _ => loadImage_of_odd hodd input s⟩
  obtain ⟨ws, hws, hlen⟩ := wordsOfBytes_of_even heven
  have hfits : ws.length ≤ Config.memWords := show ws.length ≤ 32768 by omega
  refine ⟨_, loadImage_of_words hws hfits input s, fun k low high hlow hhigh => ?pair, fun k hpast => ?past⟩
  case pair =>
    have hk : ws[k]? = some (wordOfBytes low high) := getElem?_wordsOfBytes hws hlow hhigh
    rw [read_hostReset, List.getD_eq_getElem?_getD, hk, Option.getD_some, toNat_wordOfBytes]
  case past => rw [read_hostReset, List.getD_eq_default _ _ (by omega)]

end Sys2Proof.Machine

/-! ## The decoder and the encoder are inverse (R60, R62, R68, R82) -/

namespace Sys2Proof

/-- What a decoder that has taken the opcode Word `w` answers on `ws` is read from the Words `w :: ws`. -/
def ReadFrom (w : Word) (ws : List Word) (r : Except DecodeError (Instr × List Word)) : Prop :=
  ∀ i rest, r = .ok (i, rest) → encode i ++ rest = w :: ws

theorem readFrom_op0 {w : Word} {i : Instr} (hwords : encode i = [w]) (ws : List Word) :
    ReadFrom w ws (.ok (i, ws)) := by
  rintro _ _ ⟨⟩
  rw [hwords, List.singleton_append]

theorem readFrom_op1 {w : Word} {mk : Word → Instr} (hwords : ∀ a, encode (mk a) = [w, a]) :
    ∀ ws : List Word, ReadFrom w ws (decodeOp1 w mk ws)
  | a :: _, _, _, rfl => by rw [hwords a, List.cons_append, List.singleton_append]

theorem readFrom_op2 {w : Word} {mk : Word → Word → Instr} (hwords : ∀ a b, encode (mk a b) = [w, a, b]) :
    ∀ ws : List Word, ReadFrom w ws (decodeOp2 w mk ws)
  | a :: b :: _, _, _, rfl => by rw [hwords a b, List.cons_append, List.cons_append, List.singleton_append]

theorem readFrom_op3 {w : Word} {mk : Word → Word → Word → Instr} (hwords : ∀ a b c, encode (mk a b c) = [w, a, b, c]) :
    ∀ ws : List Word, ReadFrom w ws (decodeOp3 w mk ws)
  | a :: b :: c :: _, _, _, rfl => by
    rw [hwords a b c, List.cons_append, List.cons_append, List.cons_append, List.singleton_append]

/-- Each opcode number reads the Words of the one instruction R65 gives it; a number above 21 reads nothing. -/
theorem readFrom_decodeFrom (w : Word) (ws : List Word) : ReadFrom w ws (decodeFrom w ws) := by
  unfold decodeFrom
  split
  case h_23 => rintro _ _ ⟨⟩
  all_goals rename_i hop; obtain rfl := word_eq_of_toNat hop
  case h_1 | h_19 | h_22 => exact readFrom_op0 rfl ws
  case h_3 | h_4 | h_7 | h_18 | h_20 | h_21 => exact readFrom_op1 (fun _ => rfl) ws
  case h_2 | h_8 | h_9 | h_15 | h_16 | h_17 => exact readFrom_op2 (fun _ _ => rfl) ws
  case h_5 | h_6 | h_10 | h_11 | h_12 | h_13 | h_14 => exact readFrom_op3 (fun _ _ _ => rfl) ws

/-- Settles O1: the round trip of each constructor (`decode_encode_append`). -/
theorem decodeInvertsEncode : Obligations.DecodeInvertsEncode := decode_encode_append

/-- Settles O2: every decoder form answers an instruction whose Words are those it took (`readFrom_decodeFrom`). -/
theorem encodeInvertsDecode : Obligations.EncodeInvertsDecode
  | w :: ws, rest, i, h => readFrom_decodeFrom w ws i rest h

/-- Settles O4: each sample is the encoding of the instruction it stands for, read back by `decode_encode_append`. -/
theorem sampleWordsDecode : Obligations.SampleWordsDecode :=
  ⟨decode_encode_append (.add 32768 32769 60) [], decode_encode_append (.set 32771 1234) [],
    decode_encode_append (.wmem 3 99) [], decode_encode_append (.call 200) [], decode_encode_append (.inp 32768) [],
    decode_encode_append .halt []⟩

end Sys2Proof

/-! ## The step: its cases by name (R80 to R82, R85) -/

namespace Sys2Proof.Machine

theorem sameButPcAndFault_latchAtFetch (s : State) (c : FatalCause) : SameButPcAndFault s (s.latchAtFetch c) := by
  cases c <;> exact ⟨rfl, rfl, rfl, rfl, rfl, rfl⟩

theorem step_of_faulted {s : State} (h : s.fault.isSome = true) : step s = .next s :=
  step_of_frozen ((frozen_iff s).2 (.inl h))

theorem step_above {s : State} (hh : s.halted = false) (hf : s.fault = none) (hpc : 32764 < s.pc.toNat) :
    step s = .next (s.latch (.memoryOutOfRange .fetch s.pc)) :=
  step_of_fetchDecode_error (by rw [State.frozen, hh, hf]; rfl) (fetchDecode_above hpc)

theorem exec_next (i : Instr) (s : State) : ∃ t, exec i s = .next t := by
  obtain ⟨t, h, -⟩ | ⟨c, h, -⟩ := exec_does i s
  · exact ⟨t, h⟩
  · exact ⟨_, h⟩

theorem step_next (s : State) : ∃ t, step s = .next t := by
  cases hi : issue s with
  | error t => exact ⟨t, by rw [step, hi]⟩
  | ok i =>
    obtain ⟨t, ht⟩ := exec_next i s
    exact ⟨t, by simp only [step, hi, ht]⟩

/-- Settles O6: the head of the step answers the instruction that decodes at pc (`issue_of_nextIs`). -/
theorem stepRunsDecodedInstruction : Obligations.StepRunsDecodedInstruction := fun _ _ hc hn => step_of_nextIs hc hn

/-- Settles O7: either condition freezes the engine (R80). -/
theorem frozenEngineStepsToItself : Obligations.FrozenEngineStepsToItself :=
  fun s h => step_of_frozen ((frozen_iff s).2 h)

/-- Settles O8: a fetch needs four cells (D3), and none starts above 32764. -/
theorem fetchAboveLimitFaults : Obligations.FetchAboveLimitFaults := fun _ hh hf hpc => step_above hh hf hpc

/-- Settles O9: the step latches (`step_of_opcode_above`), which touches pc and the latch only, and a Faulted engine is frozen. -/
theorem invalidOpcodeIsFatal : Obligations.InvalidOpcodeIsFatal := fun s hc hop =>
  ⟨_, step_of_opcode_above hc hop, rfl, sameButPcAndFault_latchAtFetch s (.invalidOpcode _), step_of_faulted rfl⟩

/-- Settles O10: the head of the step answers a state or an instruction, and every instruction answers a state (`exec_does`). -/
theorem stepAlwaysGivesNextState : Obligations.StepAlwaysGivesNextState := step_next

end Sys2Proof.Machine

/-! ## What each instruction may change, and the invariant (R26, R31, R40, R161) -/

namespace Sys2Proof.Machine

/-- The memory, the stack and the streams after `i`: each as before, but for the stores that belong to `i`; a store into memory
is a write inside the address space. -/
structure ChangesOwnStores (i : Instr) (s t : State) : Prop where
  mem : t.mem = s.mem ∨ (∃ a b, i = .wmem a b) ∧ ∃ (a : Nat) (v : Word), a < Config.memWords ∧ t.mem = Memory.write s.mem a v
  stack : t.stack = s.stack ∨ (∃ a, i = .push a ∨ i = .pop a ∨ i = .call a) ∨ i = .ret
  outStream : t.outStream = s.outStream ∨ ∃ a, i = .out a
  inStream : t.inStream = s.inStream ∨ ∃ a, i = .inp a

theorem ChangesOwnStores.of_kept {i : Instr} {s t : State} (hmem : t.mem = s.mem) (hstack : t.stack = s.stack)
    (hout : t.outStream = s.outStream) (hin : t.inStream = s.inStream) : ChangesOwnStores i s t :=
  ⟨.inl hmem, .inl hstack, .inl hout, .inl hin⟩

/-- An effect leaves the latch, and of the stores it changes its own. -/
theorem effect_changes {i : Instr} {s t : State} (h : Effect i s t) : t.fault = s.fault ∧ ChangesOwnStores i s t := by
  cases i with
  | halt | noop =>
    cases h
    exact ⟨rfl, .of_kept rfl rfl rfl rfl⟩
  | jmp =>
    obtain ⟨_, -, rfl⟩ := h
    exact ⟨rfl, .of_kept rfl rfl rfl rfl⟩
  | jt | jf =>
    obtain ⟨_, _, -, -, rfl⟩ := h
    split <;> exact ⟨rfl, .of_kept rfl rfl rfl rfl⟩
  | set | not =>
    obtain ⟨_, _, -, -, rfl⟩ := h
    exact ⟨rfl, .of_kept rfl rfl rfl rfl⟩
  | rmem =>
    obtain ⟨_, _, -, -, -, rfl⟩ := h
    exact ⟨rfl, .of_kept rfl rfl rfl rfl⟩
  | eq | gt | add | mult | and | or =>
    obtain ⟨_, _, _, -, -, -, rfl⟩ := h
    exact ⟨rfl, .of_kept rfl rfl rfl rfl⟩
  | mod =>
    obtain ⟨_, _, _, -, -, -, -, rfl⟩ := h
    exact ⟨rfl, .of_kept rfl rfl rfl rfl⟩
  | wmem a b =>
    obtain ⟨u, v, -, -, hu, rfl⟩ := h
    exact ⟨rfl, .inr ⟨⟨a, b, rfl⟩, u.toNat, v, Nat.lt_succ_of_le hu, rfl⟩, .inl rfl, .inl rfl, .inl rfl⟩
  | push a =>
    obtain ⟨_, -, rfl⟩ := h
    exact ⟨rfl, .inl rfl, .inr (.inl ⟨a, .inl rfl⟩), .inl rfl, .inl rfl⟩
  | pop a =>
    obtain ⟨_, _, _, -, -, rfl⟩ := h
    exact ⟨rfl, .inl rfl, .inr (.inl ⟨a, .inr (.inl rfl)⟩), .inl rfl, .inl rfl⟩
  | call a =>
    obtain ⟨_, -, rfl⟩ := h
    exact ⟨rfl, .inl rfl, .inr (.inl ⟨a, .inr (.inr rfl)⟩), .inl rfl, .inl rfl⟩
  | ret => obtain ⟨-, rfl⟩ | ⟨_, _, -, rfl⟩ := h <;> exact ⟨rfl, .inl rfl, .inr (.inr rfl), .inl rfl, .inl rfl⟩
  | out a =>
    obtain ⟨_, -, -, rfl⟩ := h
    exact ⟨rfl, .inl rfl, .inl rfl, .inr ⟨a, rfl⟩, .inl rfl⟩
  | inp a =>
    obtain ⟨_, -, -, rfl⟩ | ⟨_, _, _, -, -, rfl⟩ := h <;> exact ⟨rfl, .inl rfl, .inl rfl, .inl rfl, .inr ⟨a, rfl⟩⟩

theorem effect_fault {i : Instr} {s t : State} (h : Effect i s t) : t.fault = s.fault :=
  (effect_changes h).1

theorem exec_changes {i : Instr} {s t : State} (h : exec i s = .next t) : ChangesOwnStores i s t := by
  obtain heffect | ⟨c, rfl, -⟩ := exec_cases h
  · exact (effect_changes heffect).2
  · exact .of_kept rfl rfl rfl rfl

theorem wf_of_changes {i : Instr} {s t : State} (h : ChangesOwnStores i s t) (hs : s.mem.wf = true) : t.mem.wf = true := by
  obtain hmem | ⟨-, a, v, ha, hmem⟩ := h.mem
  · rwa [hmem]
  · rw [hmem]
    exact Memory.wf_write ha hs

/-- Where `exec` leaves the latch clear, the instruction had its effect. -/
theorem effect_of_exec {i : Instr} {s t : State} (h : exec i s = .next t) (ht : t.fault = none) : Effect i s t := by
  obtain heffect | ⟨c, rfl, -⟩ := exec_cases h
  · exact heffect
  · cases ht

/-- Where `exec` sets the latch from clear, the instruction raised the cause. -/
theorem exec_raises {i : Instr} {s t : State} {c : FatalCause} (hs : s.fault = none) (h : exec i s = .next t)
    (ht : t.fault = some c) : t = (s.advance i.length).latch c ∧ Raises i s c := by
  obtain heffect | ⟨c', rfl, hraises⟩ := exec_cases h
  · rw [effect_fault heffect, hs] at ht
    cases ht
  · cases ht
    exact ⟨rfl, hraises⟩

/-- No instruction leaves the engine both halted and Faulted: it runs where neither holds, its effect leaves the latch, and a
fatal condition leaves `halted`. -/
theorem exec_not_halted_and_faulted {i : Instr} {s t : State} (hc : CanFetch s) (h : exec i s = .next t) :
    ¬(t.halted = true ∧ t.fault.isSome = true) := by
  obtain ⟨hhalted, hfault, -⟩ := hc
  obtain heffect | ⟨c, rfl, -⟩ := exec_cases h
  · simp [effect_fault heffect, hfault]
  · simp [hhalted]

theorem halted_of_not_frozen {s : State} (h : s.frozen = false) : s.halted = false := by
  cases hh : s.halted with
  | false => rfl
  | true => exact absurd ((frozen_iff s).2 (.inr hh)) (by simp [h])

/-- A step that runs no instruction leaves all but pc, the latch and the count of free values. -/
theorem step_same_or_exec {s t : State} (h : step s = .next t) :
    SameButPcAndFault s t ∨ ∃ i, CanFetch s ∧ NextIs s i ∧ exec i s = .next t := by
  obtain ⟨-, rfl⟩ | ⟨-, c, -, rfl⟩ | ⟨hf, i, hd, hexec⟩ := step_cases h
  · exact .inl ⟨rfl, rfl, rfl, rfl, rfl, rfl⟩
  · exact .inl (sameButPcAndFault_latchAtFetch s c)
  · obtain ⟨hc, hn⟩ := nextIs_of_fetchDecode hf hd
    exact .inr ⟨i, hc, hn, hexec⟩

/-- Settles O44: a frozen step changes nothing; a fault at the fetch leaves memory and meets an engine that is not halted; an
instruction writes memory inside the address space (`exec_changes`) and sets `halted` or the latch, not both. -/
theorem stepKeepsInvariant : Obligations.StepKeepsInvariant := by
  rintro s t ⟨hwf, hnot⟩ h
  obtain ⟨-, rfl⟩ | ⟨hf, c, -, rfl⟩ | ⟨hf, i, hd, hexec⟩ := step_cases h
  · exact ⟨hwf, hnot⟩
  · obtain ⟨-, -, hmem, -⟩ := sameButPcAndFault_latchAtFetch s c
    exact ⟨hmem ▸ hwf, by simp [halted_of_not_frozen hf]⟩
  · obtain ⟨hc, -⟩ := nextIs_of_fetchDecode hf hd
    exact ⟨wf_of_changes (exec_changes hexec) hwf, exec_not_halted_and_faulted hc hexec⟩

/-- Settles O45: the empty memory is in canonical form and no condition holds at reset. -/
theorem resetMeetsInvariant : Obligations.ResetMeetsInvariant :=
  ⟨Memory.wf_nil, fun ⟨hhalted, _⟩ => Bool.false_ne_true hhalted⟩

/-- Settles O48: no effect sets the latch, so the fatal condition was met at the fetch or raised (`exec_raises`). -/
theorem faultWritesOnlyPc : Obligations.FaultWritesOnlyPc := by
  intro s t h hs ht
  obtain ⟨-, rfl⟩ | ⟨hf, c, -, rfl⟩ | ⟨hf, i, -, hexec⟩ := step_cases h
  · exact absurd hs ht
  · exact ⟨sameButPcAndFault_latchAtFetch s c, (latchAtFetch_halted s c).trans (halted_of_not_frozen hf)⟩
  · obtain ⟨c, hc⟩ := Option.ne_none_iff_exists'.1 ht
    obtain ⟨rfl, -⟩ := exec_raises hs hexec hc
    exact ⟨⟨rfl, rfl, rfl, rfl, rfl, rfl⟩, halted_of_not_frozen (s := s) hf⟩

/-- Settles O49: the step runs the instruction, and `Raises` lists what it can raise. -/
theorem faultCausesByInstruction : Obligations.FaultCausesByInstruction := by
  intro s t i c hc hn h ht
  rw [step_of_nextIs hc hn] at h
  obtain ⟨-, hfault, -⟩ := hc
  obtain ⟨-, hraises⟩ := exec_raises hfault h ht
  exact hraises

/-- Settles O50: a step that changes a store ran an instruction, and that store is the instruction's own (`exec_changes`). -/
theorem eachStoreChangedByItsInstructions : Obligations.EachStoreChangedByItsInstructions := by
  intro s t h
  obtain ⟨-, hstack, hmem, hout, hin, -⟩ | ⟨i, -, hn, hexec⟩ := step_same_or_exec h
  · exact ⟨absurd hmem, absurd hstack, absurd hout, absurd hin⟩
  · obtain ⟨hmem, hstack, hout, hin⟩ := exec_changes hexec
    refine ⟨fun hne => ?mem, fun hne => ?stack, fun hne => ?out, fun hne => ?inp⟩
    case mem =>
      obtain ⟨⟨a, b, rfl⟩, -⟩ := hmem.resolve_left hne
      exact ⟨a, b, hn⟩
    case stack =>
      obtain ⟨a, rfl | rfl | rfl⟩ | rfl := hstack.resolve_left hne
      · exact .inl ⟨a, .inl hn⟩
      · exact .inl ⟨a, .inr (.inl hn)⟩
      · exact .inl ⟨a, .inr (.inr hn)⟩
      · exact .inr hn
    case out =>
      obtain ⟨a, rfl⟩ := hout.resolve_left hne
      exact ⟨a, hn⟩
    case inp =>
      obtain ⟨a, rfl⟩ := hin.resolve_left hne
      exact ⟨a, hn⟩

end Sys2Proof.Machine

/-! ## The operands are checked first, in order (R85, R88, R89) -/

namespace Sys2Proof.Machine

/-- With these operands still to check, `r` is the fault of the first that its role does not accept, if there is one. -/
def FaultsAtFirstBad : List (Role × Word) → State → Result → Prop
  | [], _, _ => True
  | p :: ps, s, r => (BadOperand p → r = raise (.invalidRegister p.2) s) ∧ (¬BadOperand p → FaultsAtFirstBad ps s r)

theorem faultsAtFirstBad_split {s : State} {r : Result} {bad : Role × Word} {after : List (Role × Word)}
    (hbad : BadOperand bad) : ∀ {before : List (Role × Word)}, FaultsAtFirstBad (before ++ bad :: after) s r →
      (∀ p ∈ before, ¬BadOperand p) → r = raise (.invalidRegister bad.2) s
  | [], ⟨hfirst, _⟩, _ => hfirst hbad
  | p :: _, ⟨_, hlater⟩, hgood =>
    faultsAtFirstBad_split hbad (hlater (hgood p List.mem_cons_self)) fun q hq => hgood q (List.mem_cons_of_mem p hq)

theorem faultsAtFirstBad_exists {s : State} {r : Result} : ∀ {ps : List (Role × Word)}, FaultsAtFirstBad ps s r →
    (∃ p ∈ ps, BadOperand p) → ∃ w, r = raise (.invalidRegister w) s
  | p :: _, ⟨hfirst, hlater⟩, hbad => by
    by_cases hp : BadOperand p
    · exact ⟨p.2, hfirst hp⟩
    · obtain ⟨q, hq, hqbad⟩ := hbad
      obtain rfl | hq := List.mem_cons.1 hq
      · exact absurd hqbad hp
      · exact faultsAtFirstBad_exists (hlater hp) ⟨q, hq, hqbad⟩

theorem withVal_of_value {s : State} {w v : Word} (h : SourceValue s w v) (n : Nat) (k : Word → Result) :
    withVal w (s.advance n) k = k v :=
  withVal_ok ((val_advance w s n).trans (val_of_sourceValue h))

theorem withDst_of_index {w : Word} {d : Fin 8} (h : DestIndex w d) (s : State) (k : Fin 8 → Result) :
    withDst w s k = k d :=
  withDst_ok (dst_of_destIndex h)

theorem withVal_faults {w : Word} {ps : List (Role × Word)} {s : State} {n : Nat} {k : Word → Result}
    (h : ∀ v, FaultsAtFirstBad ps (s.advance n) (k v)) :
    FaultsAtFirstBad ((.source, w) :: ps) (s.advance n) (withVal w (s.advance n) k) := by
  refine ⟨fun hbad => withVal_error (val_of_badSource hbad), fun hgood => ?_⟩
  obtain ⟨v, hv⟩ := sourceValue_of_not_bad s hgood
  rw [withVal_of_value hv]
  exact h v

theorem withDst_faults {w : Word} {ps : List (Role × Word)} {s : State} {k : Fin 8 → Result}
    (h : ∀ d, FaultsAtFirstBad ps s (k d)) : FaultsAtFirstBad ((.destination, w) :: ps) s (withDst w s k) := by
  refine ⟨fun hbad => withDst_error (dst_of_badDest hbad), fun hgood => ?_⟩
  obtain ⟨d, hd⟩ := destIndex_of_not_bad hgood
  rw [withDst_of_index hd]
  exact h d

/-- Every instruction checks the operands it carries before anything else. -/
theorem exec_faultsAtFirstBad (i : Instr) (s : State) : FaultsAtFirstBad i.operandRoles (s.advance i.length) (exec i s) := by
  cases i with
  | halt | ret | noop => exact trivial
  | push | jmp | call | out => exact withVal_faults fun _ => trivial
  | pop | inp => exact withDst_faults fun _ => trivial
  | jt | jf | wmem => exact withVal_faults fun _ => withVal_faults fun _ => trivial
  | set | not | rmem => exact withDst_faults fun _ => withVal_faults fun _ => trivial
  | eq | gt | add | mult | mod | and | or =>
    exact withDst_faults fun _ => withVal_faults fun _ => withVal_faults fun _ => trivial

/-- Settles O13: `exec` faults at the first bad operand of the list it checks (`exec_faultsAtFirstBad`). -/
theorem firstBadOperandFaults : Obligations.FirstBadOperandFaults := by
  intro s i before after bad hroles hgood hbad
  have hfaults := exec_faultsAtFirstBad i s
  rw [hroles] at hfaults
  exact faultsAtFirstBad_split hbad hfaults hgood

/-! ### Well-formed instructions (R67) -/

theorem accepts_iff : ∀ {p : Role × Word}, p.1.accepts p.2 = true ↔ ¬BadOperand p
  | (.destination, w) => by
    simp only [Role.accepts, Bool.and_eq_true, decide_eq_true_eq]
    simp only [Config.regBase, Config.regTop, BadOperand, BadDest]
    omega
  | (.source, w) => by
    simp only [Role.accepts, decide_eq_true_eq]
    simp only [Config.regTop, BadOperand, BadSource]
    omega

theorem wellFormed_iff {i : Instr} : i.wellFormed = true ↔ ∀ p ∈ i.operandRoles, ¬BadOperand p := by
  simp only [Instr.wellFormed, List.all_eq_true, accepts_iff]

/-- The one fatal condition that is about operands is raised for a bad operand only. -/
theorem badOperand_of_raises {i : Instr} {s : State} {w : Word} (h : Raises i s (.invalidRegister w)) :
    ∃ p ∈ i.operandRoles, BadOperand p := by
  obtain ⟨role, v, -, hmem, hbad⟩ | ⟨_, ⟨⟩, -⟩ | ⟨_, _, _, ⟨⟩, -⟩ | ⟨_, _, _, ⟨⟩, -⟩ | ⟨_, _, _, ⟨⟩, -⟩ | ⟨_, _, ⟨⟩, -⟩ := h
  exact ⟨(role, v), hmem, hbad⟩

/-- Settles O14: a well-formed instruction has no bad operand to raise `InvalidRegister` for (`badOperand_of_raises`); an
ill-formed one has, and faults at the first (`exec_faultsAtFirstBad`). -/
theorem wellFormedIffNoInvalidRegister : Obligations.WellFormedIffNoInvalidRegister := by
  refine fun i s hs => ⟨fun hwf t w h ht => ?_, fun hwf => ?_⟩
  · obtain ⟨-, hraises⟩ := exec_raises hs h ht
    obtain ⟨p, hp, hbad⟩ := badOperand_of_raises hraises
    exact wellFormed_iff.1 hwf p hp hbad
  · have hbad : ∃ p ∈ i.operandRoles, BadOperand p := by
      by_contra hnone
      have hgood : ∀ p ∈ i.operandRoles, ¬BadOperand p := fun p hp hb => hnone ⟨p, hp, hb⟩
      rw [wellFormed_iff.2 hgood] at hwf
      cases hwf
    obtain ⟨w, hw⟩ := faultsAtFirstBad_exists (exec_faultsAtFirstBad i s) hbad
    exact ⟨_, w, hw, rfl⟩

/-- Settles O12: a register reference is what names a destination; any other Word is a bad one (D6). -/
theorem destinationMustBeRegister : Obligations.DestinationMustBeRegister := fun _ =>
  ⟨fun _ hreg => dst_of_destIndex hreg, fun hbad => dst_of_badDest (hbad.imp_left Nat.lt_succ_of_le)⟩

end Sys2Proof.Machine

/-! ## What each instruction does with accepted operands, and which operand faults -/

namespace Sys2Proof.Machine

/-! ### The shapes of operands (R64)

Which operand ends the step, for each shape the table of roles has. -/

theorem length_of_roles {i : Instr} {ops : List (Role × Word)} (h : i.operandRoles = ops) : i.length = ops.length + 1 := by
  rw [Instr.length, Instr.arity, Instr.operands, List.length_map, h]

theorem faults_of_roles {i : Instr} {ops : List (Role × Word)} (h : i.operandRoles = ops) (s : State) :
    FaultsAtFirstBad ops (s.advance (ops.length + 1)) (exec i s) := by
  have hfaults := exec_faultsAtFirstBad i s
  rwa [length_of_roles h, h] at hfaults

section
variable {s : State} {i : Instr} {a b c : Word}

theorem faults_source (h : i.operandRoles = [(.source, a)]) (hbad : BadSource a) :
    exec i s = .next (faultedAfter 2 (.invalidRegister a) s) :=
  let ⟨hfirst, _⟩ := faults_of_roles h s
  hfirst hbad

theorem faults_dest (h : i.operandRoles = [(.destination, a)]) (hbad : BadDest a) :
    exec i s = .next (faultedAfter 2 (.invalidRegister a) s) :=
  let ⟨hfirst, _⟩ := faults_of_roles h s
  hfirst hbad

theorem faults_source_source (h : i.operandRoles = [(.source, a), (.source, b)]) :
    (BadSource a → exec i s = .next (faultedAfter 3 (.invalidRegister a) s)) ∧
    (¬BadSource a → BadSource b → exec i s = .next (faultedAfter 3 (.invalidRegister b) s)) :=
  let ⟨hfirst, hlater⟩ := faults_of_roles h s
  ⟨hfirst, fun ha => let ⟨hsecond, _⟩ := hlater ha; hsecond⟩

theorem faults_dest_source (h : i.operandRoles = [(.destination, a), (.source, b)]) :
    (BadDest a → exec i s = .next (faultedAfter 3 (.invalidRegister a) s)) ∧
    (¬BadDest a → BadSource b → exec i s = .next (faultedAfter 3 (.invalidRegister b) s)) :=
  let ⟨hfirst, hlater⟩ := faults_of_roles h s
  ⟨hfirst, fun ha => let ⟨hsecond, _⟩ := hlater ha; hsecond⟩

theorem faults_dest_source_source (h : i.operandRoles = [(.destination, a), (.source, b), (.source, c)]) :
    (BadDest a → exec i s = .next (faultedAfter 4 (.invalidRegister a) s)) ∧
    (¬BadDest a → BadSource b → exec i s = .next (faultedAfter 4 (.invalidRegister b) s)) ∧
    (¬BadDest a → ¬BadSource b → BadSource c → exec i s = .next (faultedAfter 4 (.invalidRegister c) s)) :=
  let ⟨hfirst, hlater⟩ := faults_of_roles h s
  ⟨hfirst, fun ha => let ⟨hsecond, _⟩ := hlater ha; hsecond,
    fun ha hb => let ⟨_, hlast⟩ := hlater ha; let ⟨hthird, _⟩ := hlast hb; hthird⟩

/-! ### The meanings, operands accepted -/

variable {u v : Word} {d : Fin 8}

theorem alu3_of_values {check : Word → Word → Option FatalCause} (hd : DestIndex a d) (hb : SourceValue s b u)
    (hc : SourceValue s c v) (hcheck : check u v = none) (f : Word → Word → Word) :
    alu3 check f a b c s = .next ((s.advance 4).writeReg d (f u v)) := by
  rw [alu3, withDst_of_index hd, withVal_of_value hb, withVal_of_value hc, hcheck]

theorem exec_mod_zero (ha : ¬BadDest a) (hb : ¬BadSource b) (hc : SourceValue s c 0) :
    exec (.mod a b c) s = .next ((s.advance 4).latch .divideByZero) := by
  obtain ⟨d, hd⟩ := destIndex_of_not_bad ha
  obtain ⟨u, hu⟩ := sourceValue_of_not_bad s hb
  rw [exec, execMod, alu3, withDst_of_index hd, withVal_of_value hu, withVal_of_value hc]
  rfl

theorem exec_not (hd : DestIndex a d) (hb : SourceValue s b v) :
    exec (.not a b) s = .next ((s.advance 3).writeReg d (aluNot v)) := by
  rw [exec, execNot, withDst_of_index hd, withVal_of_value hb]

theorem exec_set (hd : DestIndex a d) (hb : SourceValue s b v) :
    exec (.set a b) s = .next ((s.advance 3).writeReg d v) := by
  rw [exec, execSet, withDst_of_index hd, withVal_of_value hb]

theorem exec_push (ha : SourceValue s a v) : exec (.push a) s = .next ((s.advance 2).pushWord v) := by
  rw [exec, execPush, withVal_of_value ha]

theorem exec_pop {below : List Word} (hd : DestIndex a d) (hs : s.stack = below ++ [v]) :
    exec (.pop a) s = .next (((s.advance 2).setStack below).writeReg d v) := by
  rw [exec, execPop, withDst_of_index hd, popWord_append (s := s.advance 2) hs]

theorem exec_pop_of_empty (ha : ¬BadDest a) (hs : s.stack = []) :
    exec (.pop a) s = .next ((s.advance 2).latch .stackUnderflow) := by
  obtain ⟨d, hd⟩ := destIndex_of_not_bad ha
  rw [exec, execPop, withDst_of_index hd, popWord_nil (s := s.advance 2) hs, raise_eq]

theorem exec_jmp (ha : SourceValue s a v) : exec (.jmp a) s = .next ((s.advance 2).setPc v) := by
  rw [exec, execJmp, withVal_of_value ha]

theorem wordTrue_iff : wordTrue u = true ↔ u ≠ 0 := decide_eq_true_iff

theorem jumpWhen_of_values (taken : Word → Bool) (ha : SourceValue s a u) (hb : SourceValue s b v) :
    jumpWhen taken a b s = .next (if taken u then (s.advance 3).setPc v else s.advance 3) := by
  rw [jumpWhen, withVal_of_value ha, withVal_of_value hb]

theorem exec_jt (ha : SourceValue s a u) (hb : SourceValue s b v) :
    exec (.jt a b) s = .next (if u ≠ 0 then (s.advance 3).setPc v else s.advance 3) := by
  rw [exec, execJt, jumpWhen_of_values _ ha hb]
  simp only [wordTrue_iff]

theorem exec_jf (ha : SourceValue s a u) (hb : SourceValue s b v) :
    exec (.jf a b) s = .next (if u = 0 then (s.advance 3).setPc v else s.advance 3) := by
  rw [exec, execJf, jumpWhen_of_values _ ha hb]
  simp only [Bool.not_eq_true', ← Bool.not_eq_true, wordTrue_iff, not_not]

theorem exec_call (ha : SourceValue s a v) :
    exec (.call a) s = .next (((s.advance 2).pushWord (s.advance 2).pc).setPc v) := by
  rw [exec, execCall, withVal_of_value ha]

theorem exec_ret {below : List Word} (hs : s.stack = below ++ [v]) :
    exec .ret s = .next (((s.advance 1).setStack below).setPc v) := by
  rw [exec, execRet, popWord_append (s := s.advance 1) hs]

theorem exec_rmem (hd : DestIndex a d) (hb : SourceValue s b v) (hin : v.toNat ≤ 32767) :
    exec (.rmem a b) s = .next ((s.advance 3).writeReg d (s.loadWord v)) := by
  rw [exec, execRmem, withDst_of_index hd, withVal_of_value hb, if_pos (inRange_iff.2 hin)]

theorem exec_rmem_above (ha : ¬BadDest a) (hb : SourceValue s b v) (hout : 32767 < v.toNat) :
    exec (.rmem a b) s = .next ((s.advance 3).latch (.memoryOutOfRange .read v)) := by
  obtain ⟨d, hd⟩ := destIndex_of_not_bad ha
  rw [exec, execRmem, withDst_of_index hd, withVal_of_value hb, if_neg (mt inRange_iff.1 (Nat.not_le_of_lt hout)), raise_eq]

theorem exec_wmem (ha : SourceValue s a u) (hb : SourceValue s b v) (hin : u.toNat ≤ 32767) :
    exec (.wmem a b) s = .next ((s.advance 3).storeWord u v) := by
  rw [exec, execWmem, withVal_of_value ha, withVal_of_value hb, if_pos (inRange_iff.2 hin)]

theorem exec_wmem_above (ha : SourceValue s a u) (hb : ¬BadSource b) (hout : 32767 < u.toNat) :
    exec (.wmem a b) s = .next ((s.advance 3).latch (.memoryOutOfRange .write u)) := by
  obtain ⟨v, hv⟩ := sourceValue_of_not_bad s hb
  rw [exec, execWmem, withVal_of_value ha, withVal_of_value hv, if_neg (mt inRange_iff.1 (Nat.not_le_of_lt hout)), raise_eq]

theorem exec_out (ha : SourceValue s a v) (hbyte : v.toNat ≤ 255) :
    exec (.out a) s = .next ((s.advance 2).emit (BitVec.ofNat 8 v.toNat)) := by
  rw [exec, execOut, withVal_of_value ha, if_pos (show v.toNat ≤ Config.outMax from hbyte), BitVec.ofNat_toNat]

theorem exec_out_above (ha : SourceValue s a v) (hwide : 255 < v.toNat) :
    exec (.out a) s = .next ((s.advance 2).latch (.cannotPrint v)) := by
  have hnot : ¬v.toNat ≤ Config.outMax := Nat.not_le_of_lt hwide
  rw [exec, execOut, withVal_of_value ha, if_neg hnot, raise_eq]

theorem exec_inp {byte : Byte} {rest : List Byte} (hd : DestIndex a d) (hs : s.inStream = byte :: rest) :
    exec (.inp a) s = .next (((s.advance 2).writeReg d (BitVec.ofNat 16 byte.toNat)).setIn rest) := by
  rw [exec, execInp, withDst_of_index hd, hs, BitVec.ofNat_toNat]

theorem exec_inp_of_empty (ha : ¬BadDest a) (hs : s.inStream = []) : exec (.inp a) s = .next s := by
  obtain ⟨d, hd⟩ := destIndex_of_not_bad ha
  rw [exec, execInp, withDst_of_index hd, hs]

end

end Sys2Proof.Machine

/-! ## The instructions, one by one (41 to 45) -/

namespace Sys2Proof.Machine

/-! ### Control -/

/-- Settles O15: the meaning of `halt` is this state. -/
theorem haltSetsHalted : Obligations.HaltSetsHalted := fun s => ⟨rfl, exec_halt s⟩

/-- Settles O16: the meaning of `noop` is the advance alone. -/
theorem noopOnlyAdvances : Obligations.NoopOnlyAdvances := fun _ => ⟨rfl, rfl⟩

/-- Settles O17: `exec_jmp` where the operand has a value, else the operand faults. -/
theorem jmpLoadsTarget : Obligations.JmpLoadsTarget := fun _ _ => ⟨rfl, fun _ ha => exec_jmp ha, faults_source rfl⟩

/-- Settles O18: `exec_jt` where both operands have values, else the first bad one faults. -/
theorem jtJumpsWhenNonzero : Obligations.JtJumpsWhenNonzero := fun _ _ _ =>
  ⟨rfl, fun _ _ ha hb => exec_jt ha hb, faults_source_source rfl⟩

/-- Settles O19: `exec_jf` where both operands have values, else the first bad one faults. -/
theorem jfJumpsWhenZero : Obligations.JfJumpsWhenZero := fun _ _ _ =>
  ⟨rfl, fun _ _ ha hb => exec_jf ha hb, faults_source_source rfl⟩

/-- Settles O20: `exec_call` pushes the pc of the advanced state. -/
theorem callPushesReturnAddress : Obligations.CallPushesReturnAddress := fun _ _ =>
  ⟨rfl, fun _ ha => exec_call ha, faults_source rfl⟩

/-- Settles O21: the stack has a top to jump to (`exec_ret`), or is empty (`exec_ret_of_empty`). -/
theorem retPopsOrHalts : Obligations.RetPopsOrHalts := fun _ =>
  ⟨rfl, fun _ _ hs => exec_ret hs, fun hs => exec_ret_of_empty hs⟩

/-! ### Move and stack -/

/-- Settles O22: `exec_set` where the operands are accepted, else the first bad one faults. -/
theorem setCopiesWord : Obligations.SetCopiesWord := fun _ _ _ =>
  ⟨rfl, fun _ _ hd hb => exec_set hd hb, faults_dest_source rfl⟩

/-- Settles O23: `exec_push` where the operand has a value, else it faults. -/
theorem pushAppendsWord : Obligations.PushAppendsWord := fun _ _ => ⟨rfl, fun _ ha => exec_push ha, faults_source rfl⟩

/-- Settles O24: with a destination accepted the stack has a top (`exec_pop`) or is empty (`exec_pop_of_empty`); a bad
destination faults first. -/
theorem popTakesTop : Obligations.PopTakesTop := fun _ _ =>
  ⟨rfl, fun _ _ _ hd hs => exec_pop hd hs, fun ha hs => exec_pop_of_empty ha hs, faults_dest rfl⟩

/-! ### Arithmetic, logic and compare -/

/-- An instruction of the three-operand form with no check of its own follows the law of that form, for the function of naturals
its function of Words computes. -/
theorem threeOperandLaw_of_alu3 {op : Word} {mk : Word → Word → Word → Instr} {f : Nat → Nat → Nat} {g : Word → Word → Word}
    (hwords : ∀ a b c, encode (mk a b c) = [op, a, b, c])
    (hroles : ∀ a b c, (mk a b c).operandRoles = [(.destination, a), (.source, b), (.source, c)])
    (hexec : ∀ a b c s, exec (mk a b c) s = alu3 noCheck g a b c s)
    (hresult : ∀ u v, g u v = BitVec.ofNat 16 (f u.toNat v.toNat)) : ThreeOperandLaw op mk f := by
  refine fun s a b c => ⟨hwords a b c, fun d vb vc hd hb hc => ?_, faults_dest_source_source (hroles a b c)⟩
  rw [hexec, alu3_of_values hd hb hc rfl, hresult]
  rfl

theorem boolWord_wordEq (u v : Word) : boolWord (wordEq u v) = BitVec.ofNat 16 (if u.toNat = v.toNat then 1 else 0) := by
  simp only [boolWord, wordEq, decide_eq_true_eq, BitVec.toNat_inj]
  split <;> rfl

theorem boolWord_wordGt (u v : Word) : boolWord (wordGt u v) = BitVec.ofNat 16 (if u.toNat > v.toNat then 1 else 0) := by
  simp only [boolWord, wordGt, decide_eq_true_eq]
  split <;> rfl

theorem aluAnd_eq (u v : Word) : aluAnd u v = BitVec.ofNat 16 (u.toNat &&& v.toNat) := by
  rw [← BitVec.toNat_and, BitVec.ofNat_toNat, BitVec.setWidth_eq]
  rfl

theorem aluOr_eq (u v : Word) : aluOr u v = BitVec.ofNat 16 (u.toNat ||| v.toNat) := by
  rw [← BitVec.toNat_or, BitVec.ofNat_toNat, BitVec.setWidth_eq]
  rfl

/-- Settles O25: two Words are equal when their values are (`boolWord_wordEq`). -/
theorem eqStoresEquality : Obligations.EqStoresEquality := by
  unfold Obligations.EqStoresEquality
  exact threeOperandLaw_of_alu3 (fun _ _ _ => rfl) (fun _ _ _ => rfl) (fun _ _ _ _ => rfl) boolWord_wordEq

/-- Settles O26: the relation compares the values of the Words (`boolWord_wordGt`). -/
theorem gtStoresUnsignedGreater : Obligations.GtStoresUnsignedGreater := by
  unfold Obligations.GtStoresUnsignedGreater
  exact threeOperandLaw_of_alu3 (fun _ _ _ => rfl) (fun _ _ _ => rfl) (fun _ _ _ _ => rfl) boolWord_wordGt

/-- Settles O27: the sum is taken on naturals and narrowed at the end. -/
theorem addStoresSumModulo32768 : Obligations.AddStoresSumModulo32768 := by
  unfold Obligations.AddStoresSumModulo32768
  exact threeOperandLaw_of_alu3 (fun _ _ _ => rfl) (fun _ _ _ => rfl) (fun _ _ _ _ => rfl) fun _ _ => rfl

/-- Settles O28: the product is taken on naturals and narrowed at the end. -/
theorem multStoresProductModulo32768 : Obligations.MultStoresProductModulo32768 := by
  unfold Obligations.MultStoresProductModulo32768
  exact threeOperandLaw_of_alu3 (fun _ _ _ => rfl) (fun _ _ _ => rfl) (fun _ _ _ _ => rfl) fun _ _ => rfl

/-- Settles O29: a nonzero divisor passes the check and the form writes its result; a zero divisor is raised after the operands
are accepted (`exec_mod_zero`). -/
theorem modStoresRemainder : Obligations.ModStoresRemainder := fun _ _ _ _ =>
  ⟨rfl, fun _ _ _ hd hb hc hnonzero => alu3_of_values hd hb hc (if_neg hnonzero) _, fun ha hb hc => exec_mod_zero ha hb hc,
    faults_dest_source_source rfl⟩

/-- Settles O30: the AND of two Words is that of their values (`aluAnd_eq`). -/
theorem andStoresBitwiseAnd : Obligations.AndStoresBitwiseAnd := by
  unfold Obligations.AndStoresBitwiseAnd
  exact threeOperandLaw_of_alu3 (fun _ _ _ => rfl) (fun _ _ _ => rfl) (fun _ _ _ _ => rfl) aluAnd_eq

/-- Settles O31: the OR of two Words is that of their values (`aluOr_eq`). -/
theorem orStoresBitwiseOr : Obligations.OrStoresBitwiseOr := by
  unfold Obligations.OrStoresBitwiseOr
  exact threeOperandLaw_of_alu3 (fun _ _ _ => rfl) (fun _ _ _ => rfl) (fun _ _ _ _ => rfl) aluOr_eq

theorem toNat_aluNot (v : Word) : (aluNot v).toNat = 32767 - v.toNat % 32768 := by
  have hv := v.isLt
  rw [aluNot, BitVec.toNat_and, BitVec.toNat_not]
  change (2 ^ 16 - 1 - v.toNat) &&& (2 ^ 15 - 1) = _
  rw [Nat.and_two_pow_sub_one_eq_mod]
  omega

theorem getLsbD_mask15 : ∀ k < 16, Config.mask15.getLsbD k = decide (k < 15) := by decide

theorem getLsbD_aluNot (v : Word) {k : Nat} (hk : k < 16) : (aluNot v).getLsbD k = (!v.getLsbD k && decide (k < 15)) := by
  rw [aluNot, BitVec.getLsbD_and, BitVec.getLsbD_not, getLsbD_mask15 k hk, decide_eq_true hk, Bool.true_and]

/-- Settles O32: the result is `aluNot`, known by value (`toNat_aluNot`) and bit by bit (`getLsbD_aluNot`). -/
theorem notStoresComplement15 : Obligations.NotStoresComplement15 := by
  refine fun s a b => ⟨rfl, fun d vb hd hb => ⟨aluNot vb, exec_not hd hb, toNat_aluNot vb, ?bit15, fun k hk => ?below⟩,
    faults_dest_source rfl⟩
  case bit15 => rw [getLsbD_aluNot vb (by decide), decide_eq_false (Nat.lt_irrefl 15), Bool.and_false]
  case below => rw [getLsbD_aluNot vb (by omega), decide_eq_true hk, Bool.and_true]

/-! ### Memory -/

/-- Settles O33: `exec_rmem` in range and `exec_rmem_above` out of it, where the operands are accepted. -/
theorem rmemReadsCell : Obligations.RmemReadsCell := fun _ _ _ =>
  ⟨rfl, fun _ _ hd hb hin => exec_rmem hd hb hin, fun _ ha hb hout => exec_rmem_above ha hb hout, faults_dest_source rfl⟩

/-- Settles O34: the memory stored is the write, read cell by cell (`Memory.read_write`). -/
theorem wmemStoresWord : Obligations.WmemStoresWord := fun _ _ _ =>
  ⟨rfl, fun _ _ hwf ha hb hin => ⟨_, exec_wmem ha hb hin, fun _ => Memory.read_write hwf⟩,
    fun _ ha hb hout => exec_wmem_above ha hb hout, faults_source_source rfl⟩

/-! ### Input and output -/

/-- Settles O35: `exec_out` up to 255 and `exec_out_above` past it, where the operand has a value. -/
theorem outEmitsByte : Obligations.OutEmitsByte := fun _ _ =>
  ⟨rfl, fun _ ha hbyte => exec_out ha hbyte, fun _ ha hwide => exec_out_above ha hwide, faults_source rfl⟩

/-- Settles O36: with a destination accepted there is a byte to take (`exec_inp`) or none (`exec_inp_of_empty`). -/
theorem inTakesByteOrWaits : Obligations.InTakesByteOrWaits := fun _ _ =>
  ⟨rfl, fun _ _ _ hd hs => exec_inp hd hs, fun ha hs => exec_inp_of_empty ha hs, faults_dest rfl⟩

end Sys2Proof.Machine

/-! ## What a result can be, and what pc holds afterwards (R86, R121) -/

namespace Sys2Proof.Machine

/-! ### Ranges -/

theorem getElem_writeReg_self (s : State) (d : Fin 8) (v : Word) : (s.writeReg d v).x[d] = v := by
  simp

theorem getElem_writeReg_other {s : State} {d r : Fin 8} (h : d ≠ r) (v : Word) : (s.writeReg d v).x[r] = s.x[r] :=
  s.readReg_writeReg_other d r v h

theorem toNat_ofNat_mod_modulus_lt (n : Nat) : (BitVec.ofNat 16 (n % Config.modulus)).toNat < 32768 := by
  rw [BitVec.toNat_ofNat]
  exact Nat.lt_of_le_of_lt (Nat.mod_le _ _) (Nat.mod_lt _ (by decide))

theorem toNat_aluNot_lt (v : Word) : (aluNot v).toNat < 32768 := by
  rw [toNat_aluNot]
  omega

theorem boolWord_cases (p : Bool) : boolWord p = 0 ∨ boolWord p = 1 := by
  cases p
  · exact .inl rfl
  · exact .inr rfl

theorem toNat_aluAnd_lt {u v : Word} (hu : u.toNat < 32768) : (aluAnd u v).toNat < 32768 :=
  Nat.lt_of_le_of_lt Nat.and_le_left hu

theorem toNat_aluOr_lt {u v : Word} (hu : u.toNat < 32768) (hv : v.toNat < 32768) : (aluOr u v).toNat < 32768 :=
  Nat.or_lt_two_pow (n := 15) hu hv

section
variable {s t : State} {a b c : Word} {e : Fin 8} {f : Word → Word → Word}

/-- The register a three-operand instruction wrote holds its function of the two source values. -/
theorem result_of_threeOperands (he : DestIndex a e) (h : ∃ d u v, DestIndex a d ∧ SourceValue s b u ∧ SourceValue s c v ∧
    t = (s.advance 4).writeReg d (f u v)) : ∃ u v, SourceValue s b u ∧ SourceValue s c v ∧ t.x[e] = f u v := by
  obtain ⟨d, u, v, hd, hu, hv, rfl⟩ := h
  obtain rfl := destIndex_unique hd he
  exact ⟨u, v, hu, hv, getElem_writeReg_self _ d _⟩

theorem effect_arithmetic_lt {i : Instr} (he : DestIndex a e) (h : Effect i s t)
    (hi : i = .add a b c ∨ i = .mult a b c ∨ i = .mod a b c ∨ i = .not a b) : t.x[e].toNat < 32768 := by
  obtain rfl | rfl | rfl | rfl := hi
  · obtain ⟨u, v, -, -, hx⟩ := result_of_threeOperands he h
    exact hx ▸ toNat_ofNat_mod_modulus_lt _
  · obtain ⟨u, v, -, -, hx⟩ := result_of_threeOperands he h
    exact hx ▸ toNat_ofNat_mod_modulus_lt _
  · obtain ⟨d, u, v, hd, hu, hv, -, ht⟩ := h
    obtain ⟨u, v, -, -, hx⟩ := result_of_threeOperands he ⟨d, u, v, hd, hu, hv, ht⟩
    exact hx ▸ toNat_ofNat_mod_modulus_lt _
  · obtain ⟨d, v, hd, -, rfl⟩ := h
    obtain rfl := destIndex_unique hd he
    rw [getElem_writeReg_self]
    exact toNat_aluNot_lt v

theorem effect_compare_cases {i : Instr} (he : DestIndex a e) (h : Effect i s t) (hi : i = .eq a b c ∨ i = .gt a b c) :
    t.x[e] = 0 ∨ t.x[e] = 1 := by
  obtain rfl | rfl := hi
  all_goals
    obtain ⟨u, v, -, -, hx⟩ := result_of_threeOperands he h
    rw [hx]
    exact boolWord_cases _

theorem effect_logic_lt {i : Instr} {vb vc : Word} (he : DestIndex a e) (h : Effect i s t) (hi : i = .and a b c ∨ i = .or a b c)
    (hb : SourceValue s b vb) (hc : SourceValue s c vc) (hvb : vb.toNat < 32768) (hvc : vc.toNat < 32768) :
    t.x[e].toNat < 32768 := by
  obtain rfl | rfl := hi
  all_goals
    obtain ⟨u, v, hu, hv, hx⟩ := result_of_threeOperands he h
    obtain rfl := sourceValue_unique hu hb
    obtain rfl := sourceValue_unique hv hc
    rw [hx]
  · exact toNat_aluAnd_lt hvb
  · exact toNat_aluOr_lt hvb hvc

end

/-- The engine at reset but for register 1, which holds 32768. -/
def wideRegister : State := State.reset.writeReg 1 32768

/-- Settles O37: without a fault the instruction had its effect, and the register holds the result of its function; the two
cases with bit 15 set run on a register that holds 32768. -/
theorem resultRanges : Obligations.ResultRanges := by
  refine ⟨fun s t i a b c d hd hs h ht => ?_, ?and, ?or⟩
  · have heffect := effect_of_exec h ht
    exact ⟨effect_arithmetic_lt hd heffect, effect_compare_cases hd heffect, fun vb vc hb hc hvb hvc hi =>
      effect_logic_lt hd heffect hi hb hc hvb hvc⟩
  case and => exact ⟨wideRegister, _, rfl, by decide⟩
  case or => exact ⟨wideRegister, _, rfl, by decide⟩

/-! ### pc -/

/-- An effect that is no transfer and no wait leaves the advanced pc. -/
theorem effect_pc {i : Instr} {s t : State} (h : Effect i s t) (hjmp : ∀ a, i ≠ .jmp a) (hjt : ∀ a b, i ≠ .jt a b)
    (hjf : ∀ a b, i ≠ .jf a b) (hcall : ∀ a, i ≠ .call a) (hret : i ≠ .ret) (hwait : s.inStream = [] → ∀ a, i ≠ .inp a) :
    t.pc = s.pc + BitVec.ofNat 16 i.length := by
  cases i with
  | jmp a => exact absurd rfl (hjmp a)
  | jt a b => exact absurd rfl (hjt a b)
  | jf a b => exact absurd rfl (hjf a b)
  | call a => exact absurd rfl (hcall a)
  | ret => exact absurd rfl hret
  | inp a =>
    obtain ⟨_, -, hempty, -⟩ | ⟨_, _, _, -, -, rfl⟩ := h
    · exact absurd rfl (hwait hempty a)
    · rfl
  | halt | noop =>
    cases h
    rfl
  | push =>
    obtain ⟨_, -, rfl⟩ := h
    rfl
  | out =>
    obtain ⟨_, -, -, rfl⟩ := h
    rfl
  | set | not =>
    obtain ⟨_, _, -, -, rfl⟩ := h
    rfl
  | rmem | wmem =>
    obtain ⟨_, _, -, -, -, rfl⟩ := h
    rfl
  | pop =>
    obtain ⟨_, _, _, -, -, rfl⟩ := h
    rfl
  | eq | gt | add | mult | and | or =>
    obtain ⟨_, _, _, -, -, -, rfl⟩ := h
    rfl
  | mod =>
    obtain ⟨_, _, _, -, -, -, -, rfl⟩ := h
    rfl

/-- Settles O38: a fatal condition and an effect that is no transfer leave the advanced pc (`effect_pc`); what `call` pushes and
where a transfer goes is read off its meaning. -/
theorem pcAdvancedBeforeEffect : Obligations.PcAdvancedBeforeEffect := by
  intro s t i h
  refine ⟨?advanced, ?pushed, ?jump, ?conditional, ?ret⟩
  case advanced =>
    rintro ⟨hjmp, hjt, hjf, hcall, hret, hwait⟩
    obtain heffect | ⟨c, rfl, -⟩ := exec_cases h
    · exact effect_pc heffect hjmp hjt hjf hcall hret hwait
    · rfl
  case pushed =>
    rintro a rfl hgood
    obtain ⟨v, hv⟩ := sourceValue_of_not_bad s hgood
    cases (exec_call hv).symm.trans h
    rfl
  case jump =>
    rintro a va (rfl | rfl) hv
    · cases (exec_jmp hv).symm.trans h
      rfl
    · cases (exec_call hv).symm.trans h
      rfl
  case conditional =>
    refine fun a b va vb ha hb => ⟨?_, ?_⟩
    · rintro rfl
      cases (exec_jt ha hb).symm.trans h
      split <;> rfl
    · rintro rfl
      cases (exec_jf ha hb).symm.trans h
      split <;> rfl
  case ret =>
    rintro below v rfl hs
    cases (exec_ret hs).symm.trans h
    rfl

end Sys2Proof.Machine

/-! ## Frames: what an instruction leaves unchanged (R22, R87) -/

namespace Sys2Proof.Machine

/-- The destination operand of the instructions whose effect is one register write and no more. -/
def writtenOperand : Instr → Option Word
  | .set a _ | .not a _ | .rmem a _ => some a
  | .eq a _ _ | .gt a _ _ | .add a _ _ | .mult a _ _ | .mod a _ _ | .and a _ _ | .or a _ _ => some a
  | _ => none

section
variable {s t : State} {i : Instr} {a b : Word}

theorem effect_registerWriter (h : Effect i s t) (hi : writtenOperand i = some a) :
    ∃ d v, DestIndex a d ∧ t = (s.advance i.length).writeReg d v := by
  cases i with
  | halt | push | pop | jmp | jt | jf | wmem | call | ret | out | inp | noop => cases hi
  | set | not =>
    cases hi
    obtain ⟨d, v, hd, -, ht⟩ := h
    exact ⟨d, _, hd, ht⟩
  | rmem =>
    cases hi
    obtain ⟨d, v, hd, -, -, ht⟩ := h
    exact ⟨d, _, hd, ht⟩
  | eq | gt | add | mult | and | or =>
    cases hi
    obtain ⟨d, u, v, hd, -, -, ht⟩ := h
    exact ⟨d, _, hd, ht⟩
  | mod =>
    cases hi
    obtain ⟨d, u, v, hd, -, -, -, ht⟩ := h
    exact ⟨d, _, hd, ht⟩

/-- The effect of a jump, taken or not, is a new pc. -/
theorem effect_jump (h : Effect i s t) (hi : i = .jmp a ∨ i = .jt a b ∨ i = .jf a b) : ∃ v, t = s.setPc v := by
  obtain rfl | rfl | rfl := hi
  · obtain ⟨v, -, rfl⟩ := h
    exact ⟨v, rfl⟩
  all_goals
    obtain ⟨u, v, -, -, rfl⟩ := h
    split
    · exact ⟨v, rfl⟩
    · exact ⟨s.pc + 3, rfl⟩

end

theorem exec_noop (s : State) : exec .noop s = .next (s.advance 1) := rfl

/-- Settles O39: the effect is one register write (`effect_registerWriter`); a fatal condition writes pc and the latch. -/
theorem frameOfRegisterWriters : Obligations.FrameOfRegisterWriters := by
  intro s t i a b c hi h
  have hwritten : writtenOperand i = some a := by
    obtain rfl | rfl | rfl | rfl | rfl | rfl | rfl | rfl | rfl | rfl := hi <;> rfl
  obtain heffect | ⟨_, rfl, -⟩ := exec_cases h
  · obtain ⟨d, v, hd, rfl⟩ := effect_registerWriter heffect hwritten
    refine ⟨fun r hr => getElem_writeReg_other (s := s.advance i.length) ?_ v, rfl, fun _ => rfl, rfl, rfl, rfl, rfl, .inl rfl⟩
    rintro rfl
    exact hr hd
  · exact ⟨fun _ _ => rfl, rfl, fun _ => rfl, rfl, rfl, rfl, rfl, .inr ⟨rfl, rfl⟩⟩

/-- Settles O40: each effect pushes or pops one Word, and only that of `pop` writes a register. -/
theorem frameOfStackInstructions : Obligations.FrameOfStackInstructions := by
  intro s t i a hi h
  obtain heffect | ⟨_, rfl, -⟩ := exec_cases h
  · obtain rfl | rfl | rfl | rfl := hi
    · obtain ⟨v, -, rfl⟩ := heffect
      exact ⟨fun _ _ => rfl, .inr (.inl ⟨v, rfl, .inl rfl⟩), fun _ => rfl, rfl, rfl, fun _ => rfl, rfl, .inl rfl⟩
    · obtain ⟨d, below, v, hd, hs, rfl⟩ := heffect
      refine ⟨fun r hr => getElem_writeReg_other (s := (s.advance 2).setStack below) ?_ v, .inr (.inr ⟨v, hs, .inl rfl⟩),
        fun _ => rfl, rfl, rfl, fun _ => rfl, rfl, .inl rfl⟩
      rintro rfl
      exact hr rfl hd
    · obtain ⟨v, -, rfl⟩ := heffect
      exact ⟨fun _ _ => rfl, .inr (.inl ⟨_, rfl, .inr rfl⟩), fun _ => rfl, rfl, rfl, fun _ => rfl, rfl, .inl rfl⟩
    · obtain ⟨-, rfl⟩ | ⟨below, v, hs, rfl⟩ := heffect
      · exact ⟨fun _ _ => rfl, .inl rfl, fun _ => rfl, rfl, rfl, fun hret => absurd rfl hret, rfl, .inl rfl⟩
      · exact ⟨fun _ _ => rfl, .inr (.inr ⟨v, hs, .inr rfl⟩), fun _ => rfl, rfl, rfl, fun _ => rfl, rfl, .inl rfl⟩
  · exact ⟨fun _ _ => rfl, .inl rfl, fun _ => rfl, rfl, rfl, fun _ => rfl, rfl, .inr ⟨rfl, rfl, rfl⟩⟩

/-- Settles O41: `halt` sets `halted`, and the others set pc alone (`effect_jump`); only the jumps carry an operand to fault. -/
theorem frameOfControlInstructions : Obligations.FrameOfControlInstructions := by
  intro s t i a b hi h
  obtain rfl | rfl | hjump := hi
  · cases (exec_halt s).symm.trans h
    exact ⟨fun _ => rfl, rfl, fun _ => rfl, rfl, rfl, fun hhalt => absurd rfl hhalt, rfl, .inl rfl⟩
  · cases (exec_noop s).symm.trans h
    exact ⟨fun _ => rfl, rfl, fun _ => rfl, rfl, rfl, fun _ => rfl, rfl, .inl rfl⟩
  · obtain heffect | ⟨_, rfl, -⟩ := exec_cases h
    · obtain ⟨v, rfl⟩ := effect_jump heffect hjump
      exact ⟨fun _ => rfl, rfl, fun _ => rfl, rfl, rfl, fun _ => rfl, rfl, .inl rfl⟩
    · exact ⟨fun _ => rfl, rfl, fun _ => rfl, rfl, rfl, fun _ => rfl, rfl, .inr ⟨rfl, hjump⟩⟩

/-- Settles O42: the effect writes the cell at the value of `a`, which is the one `val` gives. -/
theorem frameOfStore : Obligations.FrameOfStore := by
  intro s t a b h
  obtain ⟨u, v, hu, -, -, rfl⟩ | ⟨_, rfl, -⟩ := exec_cases h
  · refine ⟨fun va hva n hn => ?cell, fun c hc => ?novalue, fun _ => rfl, rfl, rfl, rfl, rfl, rfl, .inl rfl⟩
    case cell =>
      cases (val_of_sourceValue hu).symm.trans hva
      exact Memory.read_write_other hn
    case novalue => cases (val_of_sourceValue hu).symm.trans hc
  · exact ⟨fun _ _ _ _ => rfl, fun _ _ _ => rfl, fun _ => rfl, rfl, rfl, rfl, rfl, rfl, .inr ⟨rfl, rfl⟩⟩

/-- Settles O43: `out` emits, `in` waits or takes a byte into its destination, and a fatal condition writes neither stream. -/
theorem frameOfInputOutput : Obligations.FrameOfInputOutput := by
  intro s t i a hi h
  obtain heffect | ⟨_, rfl, -⟩ := exec_cases h
  · obtain rfl | rfl := hi
    · obtain ⟨v, -, -, rfl⟩ := heffect
      exact ⟨fun _ _ => rfl, rfl, fun _ => rfl, rfl, rfl, nofun, fun _ => rfl, .inl rfl⟩
    · obtain ⟨_, -, -, rfl⟩ | ⟨d, byte, rest, hd, -, rfl⟩ := heffect
      · exact ⟨fun _ _ => rfl, rfl, fun _ => rfl, rfl, rfl, fun _ => rfl, nofun, .inl rfl⟩
      · refine ⟨fun r hr => getElem_writeReg_other (s := s.advance 2) ?_ _, rfl, fun _ => rfl, rfl, rfl, fun _ => rfl, nofun,
          .inl rfl⟩
        rintro rfl
        exact hr rfl hd
  · exact ⟨fun _ _ => rfl, rfl, fun _ => rfl, rfl, rfl, fun _ => rfl, fun _ => rfl, .inr ⟨rfl, rfl, rfl, rfl⟩⟩

end Sys2Proof.Machine

/-! ## Two steps in a row (R53, R92, R107) -/

namespace Sys2Proof.Machine

/-- Settles O51: the store completes (`exec_wmem`) and leaves the write, read cell by cell; the next step fetches from it. -/
theorem storeSeenByNextFetch : Obligations.StoreSeenByNextFetch := by
  intro s a b va vb hc hwf hn ha hb hin
  have hread := fun n => Memory.read_write (a := va.toNat) (b := n) (v := vb) hwf
  refine ⟨(s.advance 3).storeWord va vb, (step_of_nextIs hc hn).trans (exec_wmem ha hb hin), rfl, ?_, hread,
    fun i => step_of_nextIs, fun hct hva hop => ?_⟩
  · obtain ⟨-, hfault, -⟩ := hc
    exact hfault
  · have hpc : (s.advance 3).pc = va := hva.symm
    have hcell : Memory.read (Memory.write s.mem va.toNat vb) (s.advance 3).pc.toNat = vb := by
      rw [hread, if_pos (congrArg BitVec.toNat hpc)]
    have hstep := step_of_opcode_above hct (hcell.symm ▸ hop)
    exact ⟨_, hstep, congrArg (fun w => some (FatalCause.invalidOpcode w)) hcell⟩

/-- The transfers, each with what makes it go to `target` (R102 to R106). -/
theorem exec_transfer {s : State} {i : Instr} {target : Word}
    (h : (∃ a, (i = .jmp a ∨ i = .call a) ∧ SourceValue s a target) ∨
      (∃ a b u, ((i = .jt a b ∧ u ≠ 0) ∨ (i = .jf a b ∧ u = 0)) ∧ SourceValue s a u ∧ SourceValue s b target) ∨
      (i = .ret ∧ ∃ below, s.stack = below ++ [target])) :
    ∃ stack, exec i s = .next ((s.setStack stack).setPc target) := by
  obtain ⟨a, rfl | rfl, ha⟩ | ⟨a, b, u, ⟨rfl, hu⟩ | ⟨rfl, hu⟩, ha, hb⟩ | ⟨rfl, below, hs⟩ := h
  · exact ⟨s.stack, exec_jmp ha⟩
  · exact ⟨_, exec_call ha⟩
  · exact ⟨s.stack, (exec_jt ha hb).trans (by rw [if_pos hu]; rfl)⟩
  · exact ⟨s.stack, (exec_jf ha hb).trans (by rw [if_pos hu]; rfl)⟩
  · exact ⟨below, exec_ret hs⟩

/-- Settles O52: the transfer writes pc and the stack alone (`exec_transfer`), so the next step is a fetch above 32764. -/
theorem badTargetFaultsAtNextFetch : Obligations.BadTargetFaultsAtNextFetch := by
  intro s i target hc hn habove htransfer
  obtain ⟨stack, hexec⟩ := exec_transfer htransfer
  have hstep := (step_of_nextIs hc hn).trans hexec
  obtain ⟨hhalted, hfault, -⟩ := hc
  exact ⟨_, hstep, rfl, hfault, hhalted, step_above hhalted hfault habove⟩

/-- Settles O53: appending to an empty IN_STREAM gives the bytes appended, of which `in` takes the first (`exec_inp`). -/
theorem inputWaitLiftedByHost : Obligations.InputWaitLiftedByHost := by
  intro s a d hc hn hd hempty
  refine ⟨(step_of_nextIs hc hn).trans (exec_inp_of_empty (not_badDest hd) hempty), fun byte bytes => ?_⟩
  have hin : (provideInput (byte :: bytes) s).inStream = byte :: bytes := congrArg (· ++ byte :: bytes) hempty
  exact (step_of_nextIs (s := provideInput (byte :: bytes) s) hc hn).trans (exec_inp hd hin)

end Sys2Proof.Machine

/-! ## The host's side: reset, snapshot, debug port, triggers (R184 to R188, R200) -/

namespace Sys2Proof.Machine

/-! ### Reset -/

theorem loadImage_of_long {bytes : List Byte} (heven : bytes.length % 2 = 0) (hlong : 65536 < bytes.length)
    (input : List Byte) (s : State) : loadImage bytes input s = .error .tooLong := by
  obtain ⟨ws, hws, hlen⟩ := wordsOfBytes_of_even heven
  have hover : ¬ws.length ≤ Config.memWords := show ¬ws.length ≤ 32768 by omega
  simp only [loadImage, imageWords, hws, if_neg hover]

/-- Settles O46: the fields are those of `State.reset` but for the loaded memory (`read_hostReset`) and the stream. -/
theorem resetState : Obligations.ResetState := by
  refine ⟨fun s image input _ => ⟨fun r => ?register, rfl, rfl, rfl, rfl, read_hostReset image input s, rfl, rfl⟩,
    fun s bytes input heven hlong => loadImage_of_long heven hlong input s, rfl⟩
  case register => exact Vector.getElem_replicate r.isLt

/-! ### Restoring a snapshot -/

theorem restore_of_words {bytes : List Byte} {ws : List Word} {s : State} (hs : s.fault = none)
    (hlen : 65554 ≤ bytes.length) (hws : wordsOfBytes bytes = some ws) : restore bytes s = .ok (s.withSnapshot ws) := by
  have hlong : ¬bytes.length < Config.snapFixedBytes := Nat.not_lt_of_le hlen
  simp [restore, hs, if_neg hlong, hws]

theorem restore_of_faulted {s : State} (hs : s.fault.isSome = true) (bytes : List Byte) :
    restore bytes s = .error .engineFaulted := by
  rw [restore, if_pos hs]

theorem restore_of_malformed {bytes : List Byte} {s : State} (hs : s.fault = none)
    (hbad : bytes.length < 65554 ∨ bytes.length % 2 = 1) : restore bytes s = .ok (s.latch .malformedSnapshot) := by
  by_cases hshort : bytes.length < Config.snapFixedBytes
  · simp [restore, hs, hshort]
  · have hodd : bytes.length % 2 = 1 := hbad.resolve_left hshort
    simp [restore, hs, hshort, wordsOfBytes_of_odd hodd]

/-! The parts of a snapshot's Words, as `withSnapshot` takes them out. -/

theorem registers_of_snapshotWords (s : State) :
    (Vector.ofFn fun r : Fin 8 => (snapshotWords s).getD (1 + r.val) 0) = s.x := by
  ext r hr
  rw [Vector.getElem_ofFn, List.getD_eq_getElem?_getD, snapshotWords_register s ⟨r, hr⟩]
  rfl

theorem getElem?_cells_of_snapshotWords (s : State) {n : Nat} (hn : n < 32768) :
    (((snapshotWords s).drop 9).take Config.memWords)[n]? = some (Memory.read s.mem n) := by
  rw [List.getElem?_take_of_lt (show n < Config.memWords from hn), List.getElem?_drop, snapshotWords_cell s hn]

theorem memory_of_snapshotWords {s : State} (hwf : s.mem.wf = true) :
    Memory.ofWords 0 (((snapshotWords s).drop 9).take Config.memWords) = s.mem := by
  refine Memory.ext (Memory.wf_ofWords (List.length_take_le _ _)) hwf fun n => ?_
  rw [Memory.read_ofWords, List.getD_eq_getElem?_getD]
  by_cases hn : n < 32768
  · rw [getElem?_cells_of_snapshotWords s hn, Option.getD_some]
  · have hbeyond : Config.memWords ≤ n := Nat.le_of_not_lt hn
    rw [List.getElem?_eq_none ((List.length_take_le _ _).trans hbeyond), Memory.read_beyond hbeyond hwf, Option.getD_none]

theorem stack_of_snapshotWords (s : State) : (snapshotWords s).drop (9 + Config.memWords) = s.stack := by
  refine List.ext_getElem? fun n => ?_
  rw [List.getElem?_drop]
  exact snapshotWords_stack s n

/-- Settles O56: the bytes are read back as the snapshot's Words (`wordsOfBytes_bytesOfWords`), and each part of the state is
taken out of them from its place. -/
theorem restoreOfDumpIsIdentity : Obligations.RestoreOfDumpIsIdentity := by
  intro s u hwf hu
  have hlen : 65554 ≤ (dump s).length := length_dump s ▸ Nat.le_add_right _ _
  rw [restore_of_words hu hlen (wordsOfBytes_bytesOfWords (snapshotWords s)), State.withSnapshot, registers_of_snapshotWords,
    memory_of_snapshotWords hwf, stack_of_snapshotWords]
  rfl

/-- Settles O57: the length is looked at before the pairing, and the latch before either. -/
theorem restoreRejectsMalformed : Obligations.RestoreRejectsMalformed :=
  fun bytes _ => ⟨fun hs hbad => restore_of_malformed hs hbad, fun hs => restore_of_faulted hs bytes⟩

/-! ### The debug port's registers -/

theorem debugGet_register (r : Fin 8) (s : State) : debugGet r.val s = .ok s.x[r] := by
  rw [debugGet, dif_pos r.isLt, State.readReg_eq]

theorem debugSet_register {s : State} {v : Nat} (r : Fin 8) (hs : s.fault = none) (hv : v < 65536) :
    debugSet r.val v s = .ok (s.writeReg r (BitVec.ofNat 16 v)) := by
  simp [debugSet, hs, hv]

/-- Settles O58: the latch is looked at first, then the index, then the value. -/
theorem debugRegisterAccess : Obligations.DebugRegisterAccess := by
  refine fun s i v => ⟨?register, fun hi => ⟨?get, fun hs => ?index⟩, fun hi hv hs => ?value, fun hs => ?faulted⟩
  case register =>
    rintro r rfl
    exact ⟨debugGet_register r s, fun hs hv => debugSet_register r hs hv⟩
  case get => rw [debugGet, dif_neg (Nat.not_lt_of_le hi)]
  case index => simp [debugSet, hs, Nat.not_lt_of_le hi]
  case value => simp [debugSet, hs, hi, Nat.not_lt_of_le hv]
  case faulted => rw [debugSet, if_pos hs]

/-! ### The triggers of a session -/

/-- Where four Words can be read at pc, the port decodes the instruction a step would fetch; elsewhere nothing. -/
theorem operationAt_pc_iff {s : State} {i : Instr} :
    operationAt s.mem s.pc.toNat = some (.valid i) ↔ s.pc.toNat ≤ 32764 ∧ NextIs s i := by
  by_cases hpc : s.pc.toNat ≤ 32764
  · have hfits : s.pc.toNat + 4 ≤ Config.memWords := Nat.add_le_add_right hpc 4
    rw [operationAt, if_pos hfits, fetchWindow_of_le _ hpc]
    split
    next j rest hdecode =>
      rw [Option.some.injEq, Operation.valid.injEq]
      refine ⟨fun hji => ⟨hpc, rest, hji ▸ hdecode⟩, fun ⟨_, _, hnext⟩ => ?_⟩
      cases hdecode.symm.trans hnext
      rfl
    next _ hdecode => exact ⟨nofun, fun ⟨_, _, hnext⟩ => nomatch hdecode.symm.trans hnext⟩
  · have hover : ¬s.pc.toNat + 4 ≤ Config.memWords := fun hfits => hpc (Nat.le_of_add_le_add_right (b := 4) hfits)
    rw [operationAt, if_neg hover]
    exact ⟨nofun, fun ⟨hle, _⟩ => absurd hle hpc⟩

theorem watchpointHit_iff {ses : Session} {s : State} : watchpointHit ses s = true ↔
    s.pc.toNat ≤ 32764 ∧ ∃ i w, NextIs s i ∧ w ∈ i.operands ∧ w ∈ ses.watchpoints := by
  have hvalid : watchpointHit ses s = true ↔
      ∃ i, operationAt s.mem s.pc.toNat = some (.valid i) ∧ ∃ w ∈ i.operands, w ∈ ses.watchpoints := by
    unfold watchpointHit
    cases operationAt s.mem s.pc.toNat with
    | none => simp
    | some op => cases op <;> simp [Operation.operands]
  rw [hvalid]
  constructor
  · rintro ⟨i, hop, w, hw, hwatched⟩
    obtain ⟨hpc, hnext⟩ := operationAt_pc_iff.1 hop
    exact ⟨hpc, i, w, hnext, hw, hwatched⟩
  · rintro ⟨hpc, i, w, hnext, hw, hwatched⟩
    exact ⟨i, operationAt_pc_iff.2 ⟨hpc, hnext⟩, w, hw, hwatched⟩

theorem triggered_iff {ses : Session} {s : State} : (breakpointHit ses s || watchpointHit ses s) = true ↔
    s.pc ∈ ses.breakpoints ∨ (s.pc.toNat ≤ 32764 ∧ ∃ i w, NextIs s i ∧ w ∈ i.operands ∧ w ∈ ses.watchpoints) := by
  rw [Bool.or_eq_true, breakpointHit, decide_eq_true_iff, watchpointHit_iff]

theorem consult_of_triggered {sys : DebugSystem}
    (h : (breakpointHit sys.session sys.engine || watchpointHit sys.session sys.engine) = true) :
    consult sys = { sys with session := { sys.session with running := false } } := if_pos h

theorem consult_of_not_triggered {sys : DebugSystem}
    (h : ¬(breakpointHit sys.session sys.engine || watchpointHit sys.session sys.engine) = true) :
    consult sys = sys := if_neg h

/-- Consulting the triggers writes the run-state at most. -/
theorem consult_keeps (sys : DebugSystem) : (consult sys).engine = sys.engine ∧
    (consult sys).session.breakpoints = sys.session.breakpoints ∧
    (consult sys).session.watchpoints = sys.session.watchpoints ∧ (consult sys).snapshot = sys.snapshot := by
  unfold consult
  split <;> exact ⟨rfl, rfl, rfl, rfl⟩

/-- Settles O60: the two hits are the two conditions named (`triggered_iff`), and the rest is kept (`consult_keeps`). -/
theorem triggersStopSession : Obligations.TriggersStopSession := by
  refine fun sys => ⟨fun htriggered => ?_, fun hnot => ?_, consult_keeps sys⟩
  · rw [consult_of_triggered (triggered_iff.2 htriggered)]
  · rw [consult_of_not_triggered (mt triggered_iff.1 hnot)]

end Sys2Proof.Machine
